-- ==== Sys2Proof/Word.lean ====
section
/-!
DEFINITION. The word types of the ESPlant ADC-bridge core (00_scope.md R18, R19; 20_memory.md R66).
Everything is unsigned; bit 0 is the least significant.
-/

namespace Sys2Proof

/-- A bus data byte, a selector, one half of the result (R18). -/
abbrev Byte := BitVec 8

/-- The 16-bit conversion result (R18, R22). -/
abbrev Half := BitVec 16

/-- The 32-bit event word (R80). -/
abbrev EventWord := BitVec 32

/-- A 7-bit bus slave address (R10, R61). -/
abbrev BusAddr := BitVec 7

end Sys2Proof
end

