-- ==== Sys2Proof/Syntax.lean ====
section
/-!
DEFINITION. The closed set of events and bus frames (spec/opcode_table.json), their encoded forms, the moves of the whole
system (60_exceptions.md R208) and the pseudo-instructions (30_encoding.md R94).
-/

namespace Sys2Proof

/-- The direction of a transaction: `w` is master to slave (bit 0), `r` is slave to master (bit 1) (R82, R87). -/
inductive Dir where
  | w
  | r
  deriving DecidableEq, Repr, Inhabited

/-- The acknowledge bit that the receiver of a byte sends (R91). -/
inductive Ack where
  | ack
  | nack
  deriving DecidableEq, Repr, Inhabited

/-- One constructor per row of spec/opcode_table.json: eleven event words (R81) and five bus frames (R87-R90).
Every operand has exactly the width its encoding gives it, so no operand value is ill formed. -/
inductive Instr where
  /-- `am.w`, R101: own address matched, write direction. -/
  | amW
  /-- `am.r`, R102: own address matched, read direction. -/
  | amR
  /-- `rx b`, R103: data byte `b` received. -/
  | rx (b : Byte)
  /-- `txr`, R104: ready to transmit. -/
  | txr
  /-- `stop`, R105: stop condition. -/
  | stop
  /-- `nack`, R106: the master answered NACK. -/
  | nack
  /-- `ovr`, R107: receive overrun. -/
  | ovr
  /-- `done v`, R145: conversion complete with value `v`. -/
  | done (v : Half)
  /-- `fail`, R146: conversion failed. -/
  | fail
  /-- `rearm`, R108: leave STOPPED. -/
  | rearm
  /-- `reset`, R230. -/
  | reset
  /-- `BUS.ADDR_W`, R172: the address byte 0xA0 on the wire. -/
  | busAddrW
  /-- `BUS.ADDR_R`, R172: the address byte 0xA1 on the wire. -/
  | busAddrR
  /-- `BUS.SEL`, R173: data byte `c` of a write transaction. -/
  | busSel (c : Byte)
  /-- `BUS.RES_LO`, R175: data byte 0 of a read, `d` on the wire, answered by the master with `a`. -/
  | busResLo (d : Byte) (a : Ack)
  /-- `BUS.RES_HI`, R175: data byte 1 of a read, `d` on the wire, answered by the master with `a`. -/
  | busResHi (d : Byte) (a : Ack)
  deriving DecidableEq, Repr, Inhabited

/-- An encoded event or bus byte, by the `format` column of spec/opcode_table.json. The bus rows are told apart by their
place in a transaction, not by their bits (R85). The acknowledge bit after a read byte is the master's, so it is part of
what the master does; 0 is ACK (R91). -/
inductive Code where
  | event32 (w : EventWord)
  | busAddressByte (b : Byte)
  | busWriteDataByte (b : Byte)
  | busReadDataByte0 (b : Byte) (ackBit : BitVec 1)
  | busReadDataByte1 (b : Byte) (ackBit : BitVec 1)
  deriving DecidableEq, Repr, Inhabited

/-- What can move the whole system next (R208): the core's eligible service, an encoded event or bus byte met on the event
trace or on the wire (R86, R172, R173, R175), or an environment step that has no row in the table. -/
inductive Move where
  /-- The core takes the service that the arbiter finds eligible. -/
  | service
  /-- An event word of a trace (R86), or a byte on the wire at the place its form names (R85). -/
  | code (c : Code)
  /-- `M.lose b`, R174. -/
  | lose (b : Byte)
  /-- `M.rd a`, R175: the master clocks in whatever byte is staged. -/
  | rd (a : Ack)
  /-- `M.stop`, R176. -/
  | stop
  /-- `C.finish v`, R177: `v` is the drawn value. -/
  | finish (v : Half)
  /-- `C.fail`, R178. -/
  | convFail
  deriving DecidableEq, Repr, Inhabited

/-- The pseudo-instructions of R94: whole master transactions. -/
inductive Pseudo where
  | write (c : Byte)
  | read2
  | read (k : Nat)
  | selread (c : Byte)
  | probe
  deriving DecidableEq, Repr, Inhabited

end Sys2Proof
end

