-- ==== Sys2Proof/Config.lean ====
section
/-!
DEFINITION. The parameters of an instance (00_scope.md R9-R18), this hardware's values for them, and the free values of
the model.
-/

namespace Sys2Proof

/-- A physical channel identifier (R13): nothing reads more of it than equality. DESIGN CHOICE, safe (log 6): identifiers
are numbered names. -/
structure Phys where
  id : Nat
  deriving DecidableEq, Repr, Inhabited

/-- The parameters (R10-R13, R15-R17). They are no part of the state (R20): an operation that reads one takes the
configuration as an argument, so no step can change one (R9). -/
structure Config where
  /-- OWN_ADDR, R10. -/
  ownAddr : BusAddr
  /-- N, the number of ChannelMap entries, R11. -/
  n : Nat
  /-- CHANNEL_MAP, R12: entry `i` is the physical channel of logical index `i`. -/
  channelMap : List Phys
  /-- REWIND_ON_READ, R15. -/
  rewindOnRead : Bool
  /-- CAPTURE_AFTER_INVALID, R16. -/
  captureAfterInvalid : Bool
  /-- CONV_CAN_FAIL, R17. -/
  convCanFail : Bool
  deriving DecidableEq, Repr

/-- SENTINEL, R14. -/
def Config.sentinel : Half := 0xFFFF

/-- Free value (log 6): which physical channel stands at a logical index is OPEN (R12, D22). -/
opaque Config.physOf : Nat → Phys

/-- Free value (log 1): which move comes next, at the k-th choice that nothing in the state has fixed. R208: "The choice
between them is free". -/
opaque Config.freeMove : Nat → Move

/-- This hardware: OWN_ADDR 0x50, N 7, REWIND_ON_READ true, CAPTURE_AFTER_INVALID false, CONV_CAN_FAIL false (R10-R17);
the entries of CHANNEL_MAP are left free. -/
@[reducible] def Config.esplant : Config where
  ownAddr := 0x50
  n := 7
  channelMap := (List.range 7).map Config.physOf
  rewindOnRead := true
  captureAfterInvalid := false
  convCanFail := false

end Sys2Proof
end

