-- ==== Sys2Proof/WellFormed.lean ====
section
/-!
DEFINITION. Which words, codes, pseudo-instructions and configurations the spec defines: the INVALID space of R84, the
own-address byte of R88, `READ k` of R94 and the configuration checks of R11, R12 and R219. The word check is written in
plain arithmetic, apart from the decoder, so that the two can be held against each other.
-/

namespace Sys2Proof

/-- TAG, RSV and PAYLOAD of R80, as numbers. -/
def EventWord.tagNat (w : EventWord) : Nat := w.toNat / 2 ^ 28
def EventWord.rsvNat (w : EventWord) : Nat := w.toNat / 2 ^ 16 % 2 ^ 12
def EventWord.payloadNat (w : EventWord) : Nat := w.toNat % 2 ^ 16

/-- R84: the word names no event. -/
def EventWord.invalid (w : EventWord) : Bool :=
  (w.tagNat == 0 || decide (0xB ≤ w.tagNat))
    || w.rsvNat != 0
    || (w.tagNat == 1 && w.payloadNat / 2 != 0)
    || (w.tagNat == 2 && w.payloadNat / 2 ^ 8 != 0)
    || ([3, 4, 5, 6, 8, 9, 0xA].contains w.tagNat && w.payloadNat != 0)

/-- A code that the model takes as an event or frame of this device: a word outside the INVALID space (R84), an address
byte that carries OWN_ADDR (R69, R88), any data byte (R89, R90). -/
def Code.wellFormed : Code → Bool
  | .event32 w => !w.invalid
  | .busAddressByte b => b.toNat / 2 == Config.esplant.ownAddr.toNat
  | .busWriteDataByte _ => true
  | .busReadDataByte0 _ _ => true
  | .busReadDataByte1 _ _ => true

/-- R94: `READ k` has k ≥ 1. -/
def Pseudo.wellFormed : Pseudo → Bool
  | .write _ => true
  | .read2 => true
  | .read k => decide (1 ≤ k)
  | .selread _ => true
  | .probe => true

/-- R11, R12, R219: N in 1 to 256, CHANNEL_MAP of length N and injective. -/
def Config.wellFormed (c : Config) : Bool :=
  decide (1 ≤ c.n) && decide (c.n ≤ 256) && c.channelMap.length == c.n && decide c.channelMap.Nodup

end Sys2Proof
end

