-- ==== Sys2Proof/Decode.lean ====
section
/-!
DEFINITION. Decoding and encoding of event words (30_encoding.md R80-R85) and bus bytes (R87-R91). Decoding is total: a
word of the INVALID space (R84) and an address byte of another device decode to nothing.
-/

namespace Sys2Proof

/-! ### The fields of an event word (R80) -/

def EventWord.tag (w : EventWord) : BitVec 4 := w.extractLsb' 28 4
def EventWord.rsv (w : EventWord) : BitVec 12 := w.extractLsb' 16 12
def EventWord.payload (w : EventWord) : BitVec 16 := w.extractLsb' 0 16

/-- An event that carries no payload: its PAYLOAD must be zero (R82). -/
def bareEvent (w : EventWord) (i : Instr) : Option Instr :=
  if w.payload = 0 then some i else none

/-- R81, R82, R84, R85. -/
def decodeEvent (w : EventWord) : Option Instr :=
  if w.rsv = 0 then
    match w.tag.toNat with
    | 0x1 => if w.payload = 0 then some .amW else if w.payload = 1 then some .amR else none
    | 0x2 => if w.payload.extractLsb' 8 8 = 0 then some (.rx (w.payload.extractLsb' 0 8)) else none
    | 0x3 => bareEvent w .txr
    | 0x4 => bareEvent w .stop
    | 0x5 => bareEvent w .nack
    | 0x6 => bareEvent w .ovr
    | 0x7 => some (.done w.payload)
    | 0x8 => bareEvent w .fail
    | 0x9 => bareEvent w .rearm
    | 0xA => bareEvent w .reset
    | _ => none
  else none

/-! ### Bus bytes -/

/-- RW of an address byte (R87): bit 0, with 0 for write. -/
def dirOfBit (b : BitVec 1) : Dir := if b = 0 then .w else .r
def bitOfDir : Dir → BitVec 1
  | .w => 0
  | .r => 1

/-- The acknowledge bit on the wire (R91): the line held low is ACK. -/
def ackOfBit (b : BitVec 1) : Ack := if b = 0 then .ack else .nack
def bitOfAck : Ack → BitVec 1
  | .ack => 0
  | .nack => 1

/-- The two fields of an address byte `{A[6:0], RW}` (R87), and the byte they make. -/
def addressOf (b : Byte) : BusAddr := b.extractLsb' 1 7
def directionOf (b : Byte) : Dir := dirOfBit (b.extractLsb' 0 1)
def addressByte (a : BusAddr) (d : Dir) : Byte := a ++ bitOfDir d

/-- R88: only the two address bytes that carry OWN_ADDR are frames of this device. -/
def decodeAddressByte (b : Byte) : Option Instr :=
  if addressOf b = Config.esplant.ownAddr then
    match directionOf b with
    | .w => some .busAddrW
    | .r => some .busAddrR
  else none

/-- The decoder (R85): a word by its bits, a bus byte by its place. -/
def decode : Code → Option Instr
  | .event32 w => decodeEvent w
  | .busAddressByte b => decodeAddressByte b
  | .busWriteDataByte b => some (.busSel b)
  | .busReadDataByte0 b k => some (.busResLo b (ackOfBit k))
  | .busReadDataByte1 b k => some (.busResHi b (ackOfBit k))

/-! ### The encoder -/

/-- R80: `{TAG, RSV = 0, PAYLOAD}`. -/
def eventWord (tag : BitVec 4) (payload : BitVec 16) : EventWord := tag ++ (0 : BitVec 12) ++ payload

/-- The words of R82. -/
def amWord (d : Dir) : EventWord := eventWord 0x1 ((0 : BitVec 15) ++ bitOfDir d)
def rxWord (b : Byte) : EventWord := eventWord 0x2 ((0 : BitVec 8) ++ b)
def txrWord : EventWord := eventWord 0x3 0
def stopWord : EventWord := eventWord 0x4 0
def nackWord : EventWord := eventWord 0x5 0
def ovrWord : EventWord := eventWord 0x6 0
def doneWord (v : Half) : EventWord := eventWord 0x7 v
def failWord : EventWord := eventWord 0x8 0
def rearmWord : EventWord := eventWord 0x9 0
def resetWord : EventWord := eventWord 0xA 0

def encode : Instr → Code
  | .amW => .event32 (amWord .w)
  | .amR => .event32 (amWord .r)
  | .rx b => .event32 (rxWord b)
  | .txr => .event32 txrWord
  | .stop => .event32 stopWord
  | .nack => .event32 nackWord
  | .ovr => .event32 ovrWord
  | .done v => .event32 (doneWord v)
  | .fail => .event32 failWord
  | .rearm => .event32 rearmWord
  | .reset => .event32 resetWord
  | .busAddrW => .busAddressByte (addressByte Config.esplant.ownAddr .w)
  | .busAddrR => .busAddressByte (addressByte Config.esplant.ownAddr .r)
  | .busSel c => .busWriteDataByte c
  | .busResLo d a => .busReadDataByte0 d (bitOfAck a)
  | .busResHi d a => .busReadDataByte1 d (bitOfAck a)

/-! ### The opcode table (R85) -/

/-- The mnemonic of the instruction's row, as spec/opcode_table.json spells it (R92). -/
def Instr.mnemonic : Instr → String
  | .amW => "am.w"
  | .amR => "am.r"
  | .rx _ => "rx"
  | .txr => "txr"
  | .stop => "stop"
  | .nack => "nack"
  | .ovr => "ovr"
  | .done _ => "done"
  | .fail => "fail"
  | .rearm => "rearm"
  | .reset => "reset"
  | .busAddrW => "BUS.ADDR_W"
  | .busAddrR => "BUS.ADDR_R"
  | .busSel _ => "BUS.SEL"
  | .busResLo _ _ => "BUS.RES_LO"
  | .busResHi _ _ => "BUS.RES_HI"

/-- One row of format `event32`: a word belongs to it when `word &&& mask = value`. -/
structure EventRow where
  mnemonic : String
  value : EventWord
  mask : EventWord
  deriving DecidableEq, Repr

/-- The eleven rows of format `event32` in spec/opcode_table.json. -/
def eventRows : List EventRow :=
  [⟨"am.w", 0x10000000, 0xFFFFFFFF⟩, ⟨"am.r", 0x10000001, 0xFFFFFFFF⟩, ⟨"rx", 0x20000000, 0xFFFFFF00⟩,
    ⟨"txr", 0x30000000, 0xFFFFFFFF⟩, ⟨"stop", 0x40000000, 0xFFFFFFFF⟩, ⟨"nack", 0x50000000, 0xFFFFFFFF⟩,
    ⟨"ovr", 0x60000000, 0xFFFFFFFF⟩, ⟨"done", 0x70000000, 0xFFFF0000⟩, ⟨"fail", 0x80000000, 0xFFFFFFFF⟩,
    ⟨"rearm", 0x90000000, 0xFFFFFFFF⟩, ⟨"reset", 0xA0000000, 0xFFFFFFFF⟩]

/-- The word belongs to the row (R85). -/
def EventRow.holds (r : EventRow) (w : EventWord) : Bool := w &&& r.mask == r.value

/-- No word belongs to both rows: they differ in a bit that both fix. -/
def EventRow.disjoint (r t : EventRow) : Bool := (r.value ^^^ t.value) &&& r.mask &&& t.mask != 0

/-! ### Reading a table row's word without its place -/

/-- The code of a word of `nbits` bits. A row of at most eight bits is a bus byte; with no place given it is read as the
address byte if it carries OWN_ADDR and as a selector otherwise (DESIGN CHOICE, log 8: R85 tells the bus rows apart by
their place only). -/
def tableCode (nbits w : Nat) : Option Code :=
  if nbits ≤ 8 then
    if w < 2 ^ 8 then
      let b := BitVec.ofNat 8 w
      if addressOf b = Config.esplant.ownAddr then some (.busAddressByte b) else some (.busWriteDataByte b)
    else none
  else if w < 2 ^ 32 then some (.event32 (BitVec.ofNat 32 w)) else none

/-- The instruction that the decoder reads from a table word. -/
def decodeTableWord (nbits w : Nat) : Option Instr :=
  match tableCode nbits w with
  | some c => decode c
  | none => none

end Sys2Proof
end

