-- ==== Sys2Proof/Machine/State.lean ====
section
/-!
DEFINITION. The state of the whole system: the core (10_state.md R20-R30), its environment (45_environment.md R171) and
the model's own record of which move comes next; the outcomes' reasons; the state after reset (R37, R230).
-/

namespace Sys2Proof.Machine

/-- CUR, the transmit cursor (R23). Its four values are the four 2-bit codes. -/
inductive Cursor where
  | zero
  | one
  | done
  | notReady
  deriving DecidableEq, Repr, Inhabited

/-- PHASE, the protocol state (R25): six phases and the two reserved 3-bit codes, which no rule writes. -/
inductive Phase where
  | idle
  | addrW
  | addrR
  | receiving
  | transmitting
  | stopped
  | reserved6
  | reserved7
  deriving DecidableEq, Repr, Inhabited

/-- CONV.ST, the converter interface's status (R30). -/
inductive ConvStatus where
  | idle
  | busy
  | eoc
  | err
  deriving DecidableEq, Repr, Inhabited

/-- STG, the output staging register (R24). -/
structure Staging where
  full : Bool
  data : Byte
  deriving DecidableEq, Repr, Inhabited

/-- CONV, the converter interface (R30). -/
structure Converter where
  st : ConvStatus
  ch : Byte
  val : Half
  deriving DecidableEq, Repr, Inhabited

/-- One thing that the master observes (R171): the answer to a byte it sent, or a data byte it received. -/
inductive Obs where
  | ack
  | nack
  | byte (b : Byte)
  deriving DecidableEq, Repr, Inhabited

/-- The core and its environment, for an instance with `n` channels (R11): the ten registers of R20, then ADDRESSED,
MNACK and MOBS of R171 (MOBS oldest first). -/
structure System (n : Nat) where
  sel : Byte
  res : Half
  cur : Cursor
  stg : Staging
  phase : Phase
  acken : Bool
  txreq : Bool
  pend : EventWord
  chen : BitVec n
  conv : Converter
  addressed : Bool
  mnack : Bool
  mobs : List Obs
  deriving DecidableEq, Repr

/-- The state of this hardware (N = 7) with the model's own two fields (log 1): `agenda` holds the moves that come next,
oldest first, and `draws` counts the free choices taken. -/
structure State extends System Config.esplant.n where
  agenda : List Move
  draws : Nat
  deriving DecidableEq, Repr

/-- Why the machine is stuck. The block itself never faults (R200). -/
inductive Fault where
  /-- `stuck NotEligible` (R219, R86): a service, a bus frame or an environment step that is not accepted in the current
  state. Raised by every meaning but that of `reset`, and by the moves of Moves.lean. Safe: nothing follows from it. -/
  | notEligible
  deriving DecidableEq, Repr, Inhabited

/-- Why the model declines (R219). -/
inductive Refusal where
  /-- An arm of exec that has no meaning. No arm is in this case. Safe. -/
  | notModelled (mnemonic : String)
  /-- `refuse InvalidEncoding`: the trace holds an INVALID word (R84). Raised by `takeMove`. Safe. -/
  | invalidEncoding
  /-- `refuse BadConfig`: the configuration is not one the spec defines (R11, R12). Raised by `boot`. Safe. -/
  | badConfig
  /-- `refuse IllFormedState`: the state is not well formed (R39). Raised by `step`. Safe. -/
  | illFormedState
  deriving DecidableEq, Repr, Inhabited

/-- PEND's NONE (R28). -/
def pendNone : EventWord := 0

/-- The core and its environment after reset (R37, R171), for any number of channels. -/
def System.reset (n : Nat) : System n where
  sel := 0xFF
  res := Config.sentinel
  cur := .zero
  stg := ⟨false, 0x00⟩
  phase := .idle
  acken := true
  txreq := false
  pend := pendNone
  chen := 0
  conv := ⟨.idle, 0x00, 0x0000⟩
  addressed := false
  mnack := false
  mobs := []

/-- The machine after power-on reset. The model's own fields (DESIGN CHOICE, log 3) hold no coming move and count no
choice. -/
def State.reset : State where
  toSystem := System.reset Config.esplant.n
  agenda := []
  draws := 0

end Sys2Proof.Machine
end

