-- ==== Sys2Proof/Machine/Operands.lean ====
section
/-!
DEFINITION. Operand forms: bytes of the result, the selector's validity, one-hot vectors, the register codes of R23, R25
and R30, and the ChannelMap lookup.
-/

namespace Sys2Proof.Machine

/-- `byte(v, 0)` and `byte(v, 1)` (R19): the low byte goes first on the bus (R62). -/
def loByte (v : Half) : Byte := v.extractLsb' 0 8
def hiByte (v : Half) : Byte := v.extractLsb' 8 8

/-- R141: `zext_9(b) < N`, unsigned. -/
def validSelector (n : Nat) (b : Byte) : Bool := decide ((b.setWidth 9).toNat < n)

/-- `onehot_N(i)` (R19). -/
def onehot (n i : Nat) : BitVec n := BitVec.twoPow n i

/-- R140: the physical channel of a logical index. -/
def phys (c : Config) (i : Nat) : Option Phys := c.channelMap[i]?

/-- The increment of CUR is defined on 0 and 1 only (R23). -/
def Cursor.next : Cursor → Option Cursor
  | .zero => some .one
  | .one => some .done
  | .done => none
  | .notReady => none

/-- The half of the result that the cursor selects (R104): none where no byte is to be sent. -/
def Cursor.byteOf (k : Cursor) (v : Half) : Option Byte :=
  match k with
  | .zero => some (loByte v)
  | .one => some (hiByte v)
  | .done => none
  | .notReady => none

/-- The code of CUR (R23). -/
def Cursor.code : Cursor → BitVec 2
  | .zero => 0b00
  | .one => 0b01
  | .done => 0b10
  | .notReady => 0b11

/-- The code of PHASE (R25). -/
def Phase.code : Phase → BitVec 3
  | .idle => 0b000
  | .addrW => 0b001
  | .addrR => 0b010
  | .receiving => 0b011
  | .transmitting => 0b100
  | .stopped => 0b101
  | .reserved6 => 0b110
  | .reserved7 => 0b111

/-- The code of CONV.ST (R30). -/
def ConvStatus.code : ConvStatus → BitVec 2
  | .idle => 0b00
  | .busy => 0b01
  | .eoc => 0b10
  | .err => 0b11

/-- An acknowledge bit as the master observes it (R171). -/
def ackObs : Ack → Obs
  | .ack => .ack
  | .nack => .nack

end Sys2Proof.Machine
end

