-- ==== Sys2Proof/Machine/Ops.lean ====
section
/-!
DEFINITION. The named actions of the spec (00_scope.md R19) on the core's registers, and the clear of a condition. The
block has no exception entry and no return (60_exceptions.md R200, R210, R211), so there is no such operation.
-/

namespace Sys2Proof.Machine

variable {n : Nat}

/-- `PEND <- NONE`, the source's clear-condition (R100). -/
def clearCondition (s : System n) : System n := { s with pend := pendNone }

/-- The bus engine raises a condition: PEND holds its event word (R28, R170). -/
def raiseCondition (w : EventWord) (s : System n) : System n := { s with pend := w }

/-- `flush()` (R102): the staged byte is discarded; DATA keeps its value. -/
def flush (s : System n) : System n := { s with stg := { s.stg with full := false } }

/-- A push overwrites STG (R24). -/
def pushByte (b : Byte) (s : System n) : System n := { s with stg := ⟨true, b⟩ }

/-- `send_next()` (R104): push the byte under the cursor and advance it. At NOT_READY and DONE nothing is pushed. -/
def sendNext (s : System n) : System n :=
  match s.cur.byteOf s.res, s.cur.next with
  | some b, some k => pushByte b { s with cur := k }
  | _, _ => s

/-- `fan_out(i)` (R142): enable entry `i` and disable every other. -/
def fanOut (i : Byte) (s : System n) : System n := { s with chen := onehot n i.toNat }

/-- `arm(i)` (R143): the converter starts on channel `i`; a conversion in flight is replaced. CONV.VAL keeps its value. -/
def arm (i : Byte) (s : System n) : System n := { s with conv := { s.conv with st := .busy, ch := i } }

/-- `CONV.ST <- x`. -/
def setConvStatus (x : ConvStatus) (s : System n) : System n := { s with conv := { s.conv with st := x } }

/-- The capture gate (R144). -/
def captureOk (c : Config) (s : System n) : Bool := s.cur == .notReady || c.captureAfterInvalid

/-- The capture (R145, R146): the value goes into RES, the cursor to 0, and byte 0 is pushed at once. -/
def capture (v : Half) (s : System n) : System n := sendNext { s with res := v, cur := .zero }

/-- `MOBS += o` (R171). -/
def observe (o : Obs) (s : System n) : System n := { s with mobs := s.mobs ++ [o] }

/-- An operation of the system, carried to the state of this hardware: the model's own fields stay. -/
def onSystem (f : System Config.esplant.n → Host.Outcome (System Config.esplant.n) Fault Refusal) (s : State) :
    Host.Outcome State Fault Refusal :=
  match f s.toSystem with
  | .next t => .next { s with toSystem := t }
  | .fault r => .fault r
  | .refused r => .refused r

end Sys2Proof.Machine
end

