-- ==== Sys2Proof/Machine/Flags.lean ====
section
/-!
DEFINITION. The conditions: which service is eligible (60_exceptions.md R205, R208), which environment step is enabled
(45_environment.md R172-R178), the well-formed states (10_state.md R39) and the states at rest and stretched
(45_environment.md R188).
-/

namespace Sys2Proof.Machine

variable {n : Nat}

/-! ### Phases -/

/-- PHASE ∈ {ADDR_W, RECEIVING}. -/
def Phase.isWrite : Phase → Bool
  | .addrW | .receiving => true
  | .idle | .addrR | .transmitting | .stopped | .reserved6 | .reserved7 => false

/-- PHASE ∈ {ADDR_R, TRANSMITTING}. -/
def Phase.isRead : Phase → Bool
  | .addrR | .transmitting => true
  | .idle | .addrW | .receiving | .stopped | .reserved6 | .reserved7 => false

/-- The reserved codes of R25. -/
def Phase.isReserved : Phase → Bool
  | .reserved6 | .reserved7 => true
  | .idle | .addrW | .addrR | .receiving | .transmitting | .stopped => false

/-! ### The arbiter (R208) -/

/-- The events that PEND can hold (R81, R28). -/
def heldInPend : Instr → Bool
  | .amW | .amR | .rx _ | .stop | .nack | .ovr => true
  | .txr | .done _ | .fail | .rearm | .reset => false
  | .busAddrW | .busAddrR | .busSel _ | .busResLo _ _ | .busResHi _ _ => false

/-- The event that a value of PEND stands for; none for NONE and for a word that PEND never holds. -/
def heldEvent (w : EventWord) : Option Instr := (decodeEvent w).filter heldInPend

/-- The CONVERSION source is pending (R205). -/
def conversionPending (s : System n) : Bool := s.conv.st == .eoc || s.conv.st == .err

/-- The ReadyToTransmit condition (R104, R208). -/
def readyToTransmit (s : System n) : Bool := s.pend == pendNone && s.phase.isRead && !s.stg.full && s.txreq

/-- The eligible core service: at most one (R208). R104 and R108 ask for PEND = NONE; in a well-formed state R208's order
gives it. -/
def eligible (s : System n) : Option Instr :=
  match s.conv.st with
  | .eoc => some (.done s.conv.val)
  | .err => some .fail
  | .idle | .busy =>
    match heldEvent s.pend with
    | some i => some i
    | none =>
      if readyToTransmit s then some .txr
      else if s.pend == pendNone && s.phase == .stopped then some .rearm
      else none

/-- Take a core service (R86): accepted only if it is the eligible one, payload and all; otherwise stuck, not refused. -/
def serve (i : Instr) (f : System n → System n) (s : System n) : Host.Outcome (System n) Fault Refusal :=
  if eligible s = some i then .next (f s) else .fault .notEligible

/-! ### Enabled environment steps -/

/-- R172, R176, R179: the bus engine waits while a condition is outstanding. -/
def busFree (s : System n) : Bool := s.pend == pendNone

/-- `M.wr` and `M.lose` (R173, R174). -/
def writeEnabled (s : System n) : Bool := busFree s && s.addressed && s.phase.isWrite

/-- `M.rd` (R175). -/
def readEnabled (s : System n) : Bool := busFree s && s.addressed && s.phase.isRead && s.stg.full && !s.mnack

/-- `C.finish` (R177). -/
def finishEnabled (s : System n) : Bool := s.conv.st == .busy

/-- `C.fail` (R178). -/
def convFailEnabled (c : Config) (s : System n) : Bool := s.conv.st == .busy && c.convCanFail

/-- Take an environment step where it is enabled; it does not happen elsewhere (log 4). -/
def act (enabled : Bool) (f : System n → System n) (s : System n) : Host.Outcome (System n) Fault Refusal :=
  if enabled then .next (f s) else .fault .notEligible

/-! ### Well-formed states (R39) -/

/-- R28, R39: PEND is NONE or carries one of the five held tags with a well-formed payload. -/
def pendWellFormed (s : System n) : Bool := s.pend == pendNone || (heldEvent s.pend).isSome

/-- INV1 (R38): ACKEN = 0 if and only if PHASE = STOPPED. -/
def inv1 (s : System n) : Bool := !s.acken == (s.phase == .stopped)

/-- INV2 (R38): while a result is awaited, the conversion of the selected channel is in flight or ended, and exactly its
channel is enabled. -/
def inv2 (s : System n) : Bool :=
  s.cur != .notReady
    || (s.conv.st != .idle && s.conv.ch == s.sel && validSelector n s.sel && s.chen == onehot n s.sel.toNat)

/-- R39: the channel in flight or finished is a logical channel. -/
def channelWellFormed (s : System n) : Bool :=
  (s.conv.st != .busy && s.conv.st != .eoc) || validSelector n s.conv.ch

/-- R39. -/
def System.wellFormed (s : System n) : Bool :=
  !s.phase.isReserved && channelWellFormed s && pendWellFormed s && inv1 s && inv2 s

/-! ### At rest and stretched (R188) -/

/-- R188: no core service is eligible and no converter step is enabled. -/
def atRest (s : System n) : Bool := (eligible s).isNone && s.conv.st == .idle

/-- R175, R188: the master is held in a read because no byte is staged. -/
def clockHeld (s : System n) : Bool := s.addressed && s.phase.isRead && !s.stg.full && !s.mnack

/-- R188: at rest and held, so only the master's stop or a new address phase can move the system. -/
def stretched (s : System n) : Bool := atRest s && clockHeld s

/-- The classification of a state that R219 names beside the refusals. -/
inductive RestStatus where
  | running
  | stretched
  | atRest
  deriving DecidableEq, Repr

/-- R188, R219. -/
def restStatus (s : System n) : RestStatus :=
  if stretched s then .stretched else if atRest s then .atRest else .running

end Sys2Proof.Machine
end

