-- ==== Sys2Proof/Machine/BusEvents.lean ====
section
/-!
DEFINITION. The bus-side services (40_bus_events.md R100-R109), one effect and one meaning each. An effect is written for
every number of channels and every parameter value; the meaning exec calls takes this hardware's configuration.
-/

namespace Sys2Proof.Machine

variable {n : Nat}

/-- R101. -/
def amWEffect (s : System n) : System n :=
  { clearCondition s with phase := .addrW, txreq := false }

/-- `am.w`, R101. -/
def execAmW (s : State) : Host.Outcome State Fault Refusal :=
  onSystem (serve .amW amWEffect) s

/-- R102: a ready result is sent from byte 0. -/
def rewind (c : Config) (s : System n) : System n :=
  if c.rewindOnRead && s.cur != .notReady then { s with cur := .zero } else s

/-- R102. -/
def amREffect (c : Config) (s : System n) : System n :=
  { rewind c (flush (clearCondition s)) with phase := .addrR, txreq := true }

/-- `am.r`, R102. -/
def execAmR (s : State) : Host.Outcome State Fault Refusal :=
  onSystem (serve .amR (amREffect Config.esplant)) s

/-- R103, the valid branch. -/
def selectValid (b : Byte) (s : System n) : System n :=
  arm b { fanOut b s with cur := .notReady }

/-- R103, the invalid branch: no conversion, the sentinel is ready at once. -/
def selectInvalid (s : System n) : System n :=
  { s with res := Config.sentinel, cur := .zero }

/-- R103. -/
def rxEffect (b : Byte) (s : System n) : System n :=
  let s1 := { clearCondition s with sel := b, phase := .receiving }
  if validSelector n b then selectValid b s1 else selectInvalid s1

/-- `rx b`, R103. -/
def execRx (b : Byte) (s : State) : Host.Outcome State Fault Refusal :=
  onSystem (serve (.rx b) (rxEffect b)) s

/-- R104: the request is consumed, and a byte is pushed if the cursor names one. -/
def txrEffect (s : System n) : System n :=
  sendNext { s with txreq := false, phase := .transmitting }

/-- `txr`, R104. -/
def execTxr (s : State) : Host.Outcome State Fault Refusal :=
  onSystem (serve .txr txrEffect) s

/-- R105. -/
def stopEffect (s : System n) : System n :=
  { clearCondition s with phase := .stopped, acken := false }

/-- `stop`, R105. -/
def execStop (s : State) : Host.Outcome State Fault Refusal :=
  onSystem (serve .stop stopEffect) s

/-- R106: cleared unconditionally. -/
def nackEffect (s : System n) : System n := clearCondition s

/-- `nack`, R106. -/
def execNack (s : State) : Host.Outcome State Fault Refusal :=
  onSystem (serve .nack nackEffect) s

/-- R107: cleared unconditionally; the lost byte changes nothing. -/
def ovrEffect (s : System n) : System n := clearCondition s

/-- `ovr`, R107. -/
def execOvr (s : State) : Host.Outcome State Fault Refusal :=
  onSystem (serve .ovr ovrEffect) s

/-- R108. -/
def rearmEffect (s : System n) : System n :=
  { s with phase := .idle, acken := true }

/-- `rearm`, R108. -/
def execRearm (s : State) : Host.Outcome State Fault Refusal :=
  onSystem (serve .rearm rearmEffect) s

end Sys2Proof.Machine
end

