-- ==== Sys2Proof/Machine/Environment.lean ====
section
/-!
DEFINITION. The environment steps (45_environment.md R172-R178): the bus engine with the master, and the converter. Each is
written for every configuration.
-/

namespace Sys2Proof.Machine

variable {n : Nat}

/-- The answer of the core's bus engine to an address phase (R91, R172). -/
def addressAcked (c : Config) (a : BusAddr) (s : System n) : Bool := a == c.ownAddr && s.acken

/-- R172, the effect. -/
def mAddrEffect (c : Config) (a : BusAddr) (d : Dir) (s : System n) : System n :=
  if addressAcked c a s then
    raiseCondition (amWord d) { observe .ack s with addressed := true, mnack := false }
  else { observe .nack s with addressed := false }

/-- `M.addr a, d`, R172. -/
def mAddr (c : Config) (a : BusAddr) (d : Dir) (s : System n) : Host.Outcome (System n) Fault Refusal :=
  act (busFree s) (mAddrEffect c a d) s

/-- R173, the effect: every data byte is acknowledged (R91). -/
def mWrEffect (b : Byte) (s : System n) : System n := raiseCondition (rxWord b) (observe .ack s)

/-- `M.wr b`, R173. -/
def mWr (b : Byte) (s : System n) : Host.Outcome (System n) Fault Refusal :=
  act (writeEnabled s) (mWrEffect b) s

/-- R174, the effect: the byte reaches no register. -/
def mLoseEffect (s : System n) : System n := raiseCondition ovrWord (observe .ack s)

/-- `M.lose b`, R174: the lost byte has no part in the effect. -/
def mLose (_b : Byte) (s : System n) : Host.Outcome (System n) Fault Refusal :=
  act (writeEnabled s) mLoseEffect s

/-- R175: the master answers the byte it took. -/
def answerByte (a : Ack) (s : System n) : System n :=
  match a with
  | .ack => { s with txreq := true }
  | .nack => raiseCondition nackWord { s with mnack := true }

/-- R175, the effect: the staged byte is observed, STG empties. -/
def mRdEffect (a : Ack) (s : System n) : System n := answerByte a (flush (observe (.byte s.stg.data) s))

/-- `M.rd a`, R175. -/
def mRd (a : Ack) (s : System n) : Host.Outcome (System n) Fault Refusal :=
  act (readEnabled s) (mRdEffect a) s

/-- R176, the effect: a stop reaches the core only if its transaction was addressed to it. -/
def mStopEffect (s : System n) : System n :=
  if s.addressed then raiseCondition stopWord { s with addressed := false } else s

/-- `M.stop`, R176: admitted during a stretched read too. -/
def mStop (s : System n) : Host.Outcome (System n) Fault Refusal :=
  act (busFree s) mStopEffect s

/-- R177, the effect. -/
def cFinishEffect (v : Half) (s : System n) : System n :=
  setConvStatus .eoc { s with conv := { s.conv with val := v } }

/-- `C.finish v`, R177: `v` is the draw (log 12). -/
def cFinish (v : Half) (s : System n) : Host.Outcome (System n) Fault Refusal :=
  act (finishEnabled s) (cFinishEffect v) s

/-- `C.fail`, R178. -/
def cFail (c : Config) (s : System n) : Host.Outcome (System n) Fault Refusal :=
  act (convFailEnabled c s) (setConvStatus .err) s

/-- The physical channel that the conversion in flight samples (R143, R177). -/
def sampled (c : Config) (s : System n) : Option Phys := phys c s.conv.ch.toNat

/-- The physical channels that CHEN enables at the converter's input (R29). -/
def enabledPhys (c : Config) (s : System n) : List Phys :=
  ((List.range n).filter (fun j => s.chen.getLsbD j)).filterMap (phys c)

end Sys2Proof.Machine
end

