-- ==== Sys2Proof/Machine/BusFrames.lean ====
section
/-!
DEFINITION. The bus-frame rows of the opcode table (30_encoding.md R87-R91): what each byte on the wire does, through the
environment step that carries it.
-/

namespace Sys2Proof.Machine

variable {n : Nat}

/-- `BUS.ADDR_W`, R172: the master addresses this device for a write. -/
def execBusAddrW (s : State) : Host.Outcome State Fault Refusal :=
  onSystem (mAddr Config.esplant Config.esplant.ownAddr .w) s

/-- `BUS.ADDR_R`, R172: the master addresses this device for a read. -/
def execBusAddrR (s : State) : Host.Outcome State Fault Refusal :=
  onSystem (mAddr Config.esplant Config.esplant.ownAddr .r) s

/-- `BUS.SEL`, R173, R89: every data byte of a write is a selector. -/
def execBusSel (c : Byte) (s : State) : Host.Outcome State Fault Refusal :=
  onSystem (mWr c) s

/-- The staged byte is byte 1 of the result: both bytes have been pushed (R23, R38 INV4). DEDUCED, log 10. -/
def stagedIsHigh (s : System n) : Bool := s.cur == .done

/-- A read byte `d` at its place on the wire: the step R175, where the byte the device drives is `d` (R90). -/
def readFrame (high : Bool) (d : Byte) (a : Ack) (s : System n) : Host.Outcome (System n) Fault Refusal :=
  if stagedIsHigh s == high && s.stg.data == d then mRd a s else .fault .notEligible

/-- `BUS.RES_LO`, R175, R90. -/
def execBusResLo (d : Byte) (a : Ack) (s : State) : Host.Outcome State Fault Refusal :=
  onSystem (readFrame false d a) s

/-- `BUS.RES_HI`, R175, R90. -/
def execBusResHi (d : Byte) (a : Ack) (s : State) : Host.Outcome State Fault Refusal :=
  onSystem (readFrame true d a) s

/-- The frame that `M.rd a` puts on the wire: the staged byte, at the place the cursor gives. -/
def stagedFrame (a : Ack) (s : System n) : Code :=
  if stagedIsHigh s then .busReadDataByte1 s.stg.data (bitOfAck a) else .busReadDataByte0 s.stg.data (bitOfAck a)

end Sys2Proof.Machine
end

