-- ==== Sys2Proof/Machine/Conversion.lean ====
section
/-!
DEFINITION. The conversion-side services (41_conversion.md R144-R149): completion and failure, with the capture gate.
-/

namespace Sys2Proof.Machine

variable {n : Nat}

/-- The ending of a conversion with `v` to capture: CONV goes idle, and `v` is captured if the gate is open (R144). -/
def endConversion (c : Config) (v : Half) (s : System n) : System n :=
  let s1 := setConvStatus .idle s
  if captureOk c s1 then capture v s1 else s1

/-- R145: the value is CONV.VAL, stored verbatim (R147). -/
def doneEffect (c : Config) (s : System n) : System n := endConversion c s.conv.val s

/-- `done v`, R145: eligible only with `v = CONV.VAL` (R86, R208). -/
def execDone (v : Half) (s : State) : Host.Outcome State Fault Refusal :=
  onSystem (serve (.done v) (doneEffect Config.esplant)) s

/-- R146: the sentinel is captured, as for an invalid channel. -/
def failEffect (c : Config) (s : System n) : System n := endConversion c Config.sentinel s

/-- `fail`, R146. -/
def execFail (s : State) : Host.Outcome State Fault Refusal :=
  onSystem (serve .fail (failEffect Config.esplant)) s

end Sys2Proof.Machine
end

