-- ==== Sys2Proof/Machine/ResetService.lean ====
section
/-!
DEFINITION. The reset service and boot (70_reset_and_hazards.md R230-R234).
-/

namespace Sys2Proof.Machine

variable {n : Nat}

/-- R230: every register of the core and ADDRESSED and MNACK take their reset values; MOBS, which is not hardware state,
stays. -/
def resetEffect (s : System n) : System n := { System.reset n with mobs := s.mobs }

/-- `reset`, R230: accepted in every state. -/
def execReset (s : State) : Host.Outcome State Fault Refusal :=
  onSystem (fun t => .next (resetEffect t)) s

/-- Boot (R233, R234): the configuration is fixed and checked first (R219), and reset comes last. -/
def boot (c : Config) : Host.Outcome (System c.n) Fault Refusal :=
  if c.wellFormed then .next (System.reset c.n) else .refused .badConfig

end Sys2Proof.Machine
end

