-- ==== Sys2Proof/Machine/Dispatch.lean ====
section
/-!
DEFINITION. exec: one arm per row of spec/opcode_table.json.
-/

namespace Sys2Proof.Machine

def exec (i : Instr) (s : State) : Host.Outcome State Fault Refusal :=
  match i with
  -- the event words (R81)
  | .amW => Sys2Proof.Machine.execAmW s
  | .amR => Sys2Proof.Machine.execAmR s
  | .rx b => Sys2Proof.Machine.execRx b s
  | .txr => Sys2Proof.Machine.execTxr s
  | .stop => Sys2Proof.Machine.execStop s
  | .nack => Sys2Proof.Machine.execNack s
  | .ovr => Sys2Proof.Machine.execOvr s
  | .done v => Sys2Proof.Machine.execDone v s
  | .fail => Sys2Proof.Machine.execFail s
  | .rearm => Sys2Proof.Machine.execRearm s
  | .reset => Sys2Proof.Machine.execReset s
  -- the bus frames (R87-R90)
  | .busAddrW => Sys2Proof.Machine.execBusAddrW s
  | .busAddrR => Sys2Proof.Machine.execBusAddrR s
  | .busSel c => Sys2Proof.Machine.execBusSel c s
  | .busResLo d a => Sys2Proof.Machine.execBusResLo d a s
  | .busResHi d a => Sys2Proof.Machine.execBusResHi d a s

end Sys2Proof.Machine
end

