-- ==== Sys2Proof/Machine/Moves.lean ====
section
/-!
DEFINITION. One move of the whole system (60_exceptions.md R208), the free choice of the next move, the presenting of an
event to the machine, and the master transactions of 30_encoding.md R94.
-/

namespace Sys2Proof.Machine

variable {n : Nat}

/-! ### One move -/

/-- A code that decodes to no row: an address byte of another device is still an address phase (R172), an INVALID word is
refused by name (R84, R219). -/
def takeUndecoded (c : Code) (s : State) : Host.Outcome State Fault Refusal :=
  match c with
  | .busAddressByte b => onSystem (mAddr Config.esplant (addressOf b) (directionOf b)) s
  | .event32 _ | .busWriteDataByte _ | .busReadDataByte0 _ _ | .busReadDataByte1 _ _ => .refused .invalidEncoding

/-- A code met on the trace or on the wire: decode it and run the instruction. -/
def takeCode (c : Code) (s : State) : Host.Outcome State Fault Refusal :=
  match decode c with
  | some i => exec i s
  | none => takeUndecoded c s

/-- The core takes its eligible service (R208). -/
def takeService (s : State) : Host.Outcome State Fault Refusal :=
  match eligible s.toSystem with
  | some i => exec i s
  | none => .fault .notEligible

/-- One move of the whole system (R208). -/
def takeMove (m : Move) (s : State) : Host.Outcome State Fault Refusal :=
  match m with
  | .service => takeService s
  | .code c => takeCode c s
  | .lose b => onSystem (mLose b) s
  | .rd a => takeCode (stagedFrame a s.toSystem) s
  | .stop => onSystem mStop s
  | .finish v => onSystem (cFinish v) s
  | .convFail => onSystem (cFail Config.esplant) s

/-- Moves in order, stopping at the first that does not happen: a run in the sense of R71. -/
def takeMoves : List Move → State → Host.Outcome State Fault Refusal
  | [], s => .next s
  | m :: ms, s =>
    match takeMove m s with
    | .next t => takeMoves ms t
    | .fault r => .fault r
    | .refused r => .refused r

/-! ### The free choice (log 1, 2) -/

/-- No move was possible where one was freely chosen: the core takes its eligible service, and with none the system waits
and keeps its state (R218). -/
def waitStep (s : State) : Host.Outcome State Fault Refusal :=
  match eligible s.toSystem with
  | some i => exec i s
  | none => .next s

/-- A freely chosen move: any move that is possible (R208). -/
def chosenStep (m : Move) (s : State) : Host.Outcome State Fault Refusal :=
  match takeMove m s with
  | .next t => .next t
  | .fault _ | .refused _ => waitStep s

/-- The state with one more free choice counted. -/
def countDraw (s : State) : State := { s with draws := s.draws + 1 }

/-- The next move of a well-formed state: the agenda's first, or a free choice. -/
def nextStep (s : State) : Host.Outcome State Fault Refusal :=
  match s.agenda with
  | m :: rest => takeMove m { s with agenda := rest }
  | [] => chosenStep (Config.freeMove s.draws) (countDraw s)

/-- A state outside R39 is declined (R219, log 5). -/
def guardedStep (s : State) : Host.Outcome State Fault Refusal :=
  if s.toSystem.wellFormed then nextStep s else .refused .illFormedState

/-! ### Presenting an event (log 3) -/

/-- A conversion that has ended is put back, so that a bus-side service can be eligible (R208). -/
def settleConversion (s : System n) : System n :=
  if conversionPending s then setConvStatus (if s.cur = .notReady then .busy else .idle) s else s

/-- The phase, or `p` where the phase is not of the wanted kind; address acknowledgement is on in either (INV1). -/
def inPhase (wanted : Phase → Bool) (p : Phase) (s : System n) : System n :=
  { s with phase := if wanted s.phase then s.phase else p, acken := true }

/-- The system with the conditions in which the event or frame can happen; nothing else changes. -/
def present (i : Instr) (s : System n) : System n :=
  match i with
  | .amW => raiseCondition (amWord .w) (settleConversion s)
  | .amR => raiseCondition (amWord .r) (settleConversion s)
  | .rx b => raiseCondition (rxWord b) (settleConversion s)
  | .stop => raiseCondition stopWord (settleConversion s)
  | .nack => raiseCondition nackWord (settleConversion s)
  | .ovr => raiseCondition ovrWord (settleConversion s)
  | .txr => { inPhase Phase.isRead .addrR (flush (clearCondition (settleConversion s))) with txreq := true }
  | .done v => { s with conv := ⟨.eoc, if validSelector n s.conv.ch then s.conv.ch else 0, v⟩ }
  | .fail => setConvStatus .err s
  | .rearm => { clearCondition (settleConversion s) with phase := .stopped, acken := false }
  | .reset => s
  | .busAddrW => clearCondition s
  | .busAddrR => clearCondition s
  | .busSel _ => { inPhase Phase.isWrite .addrW (clearCondition s) with addressed := true }
  | .busResLo d _ =>
    { pushByte d (inPhase Phase.isRead .addrR (clearCondition s)) with
      addressed := true, mnack := false, cur := if s.cur = .done then .one else s.cur }
  | .busResHi d _ =>
    { pushByte d (inPhase Phase.isRead .addrR (clearCondition s)) with
      addressed := true, mnack := false, cur := .done }

/-- The code becomes the next move, and the event it stands for is presented. -/
def placeCode (c : Code) (s : State) : State :=
  match decode c with
  | some i => { s with toSystem := present i s.toSystem, agenda := .code c :: s.agenda }
  | none => { s with agenda := .code c :: s.agenda }

/-- A table word becomes the next move; a word that is no table word changes nothing. -/
def placeTableWord (s : State) (nbits w : Nat) : State :=
  match tableCode nbits w with
  | some c => placeCode c s
  | none => s

/-! ### Moves by their spec names, and master transactions (R93, R94) -/

/-- `M.addr a, d`. -/
def moveAddr (a : BusAddr) (d : Dir) : Move := .code (.busAddressByte (addressByte a d))

/-- `M.wr b`. -/
def moveWr (b : Byte) : Move := .code (.busWriteDataByte b)

/-- An event word of a trace (R86). -/
def moveWord (w : EventWord) : Move := .code (.event32 w)

/-- The master's steps of a pseudo-instruction (R94); the core services and converter steps between them are no part of
it. `READ 0` is no pseudo-instruction (Pseudo.wellFormed) and expands like `READ 1`. -/
def expand : Pseudo → List Move
  | .write c => [moveAddr 0x50 .w, moveWr c, .stop]
  | .read2 => [moveAddr 0x50 .r, .rd .ack, .rd .nack, .stop]
  | .read k => moveAddr 0x50 .r :: List.replicate (k - 1) (.rd .ack) ++ [.rd .nack, .stop]
  | .selread c => [moveAddr 0x50 .w, moveWr c, moveAddr 0x50 .r, .rd .ack, .rd .nack, .stop]
  | .probe => [moveAddr 0x50 .w, .stop]

/-- R94: an address phase that is answered NACK ends the attempt, and the master issues a stop. It may then repeat the whole
pseudo-instruction. -/
def abandonedAttempt (d : Dir) : List Move := [moveAddr 0x50 d, .stop]

end Sys2Proof.Machine
end

