-- ==== Sys2Proof/Machine/Step.lean ====
section
/-!
DEFINITION. The step of the machine, and the placing of a table word where the next step meets it. Both only call
Machine/Moves.lean.
-/

namespace Sys2Proof.Machine

/-- One step of the whole system (R208, R219). -/
def step (s : State) : Host.Outcome State Fault Refusal := guardedStep s

/-- The instruction becomes the machine's next move, and its event is presented (log 3). -/
def State.withFetchWord (s : State) (nbits w : Nat) : State := placeTableWord s nbits w

end Sys2Proof.Machine
end

