-- ==== Sys2Proof/Machine/Trace.lean ====
section
/-!
DEFINITION. The core's trace: a run recorded as the event words that it services, in order (30_encoding.md R86). It is read off
a run, given by its moves or by the machine's own steps, and is no state (log 18).
-/

namespace Sys2Proof.Machine

variable {n : Nat}

/-- The event word of an instruction (R80); none for a bus frame. -/
def wordOf (i : Instr) : Option EventWord :=
  match encode i with
  | .event32 w => some w
  | .busAddressByte _ | .busWriteDataByte _ | .busReadDataByte0 _ _ | .busReadDataByte1 _ _ => none

/-- The event word that a move names. -/
def eventWordIn (m : Move) : Option EventWord :=
  match m with
  | .code (.event32 w) => some w
  | .code (.busAddressByte _) | .code (.busWriteDataByte _) => none
  | .code (.busReadDataByte0 _ _) | .code (.busReadDataByte1 _ _) => none
  | .service | .lose _ | .rd _ | .stop | .finish _ | .convFail => none

/-- The event word that the core services when the move is taken: its own, or that of the eligible service. -/
def servicedWord (m : Move) (s : System n) : Option EventWord :=
  match m with
  | .service => (eligible s).bind wordOf
  | .code _ | .lose _ | .rd _ | .stop | .finish _ | .convFail => eventWordIn m

/-! ### A run given by its moves -/

/-- R86: the event words serviced by moves taken in order, up to the first that does not happen. -/
def traceOf : List Move → State → List EventWord
  | [], _ => []
  | m :: ms, s =>
    match takeMove m s with
    | .next t => (servicedWord m s.toSystem).toList ++ traceOf ms t
    | .fault _ => []
    | .refused _ => []

/-- The move with its core service named by the word that is recorded for it. -/
def nameService (m : Move) (s : System n) : Move :=
  match servicedWord m s with
  | some w => moveWord w
  | none => m

/-- The moves of a run as they are replayed (R86): each core service is met as its event word. -/
def replayOf : List Move → State → List Move
  | [], _ => []
  | m :: ms, s =>
    match takeMove m s with
    | .next t => nameService m s.toSystem :: replayOf ms t
    | .fault _ => m :: ms
    | .refused _ => m :: ms

/-! ### A run of the machine's own steps -/

/-- The move can be taken. -/
def possible (m : Move) (s : State) : Bool :=
  match takeMove m s with
  | .next _ => true
  | .fault _ => false
  | .refused _ => false

/-- The move that a step takes (log 1, 2); none where the system waits. -/
def stepMove (s : State) : Option Move :=
  match s.agenda with
  | m :: _ => some m
  | [] =>
    if possible (Config.freeMove s.draws) (countDraw s) then some (Config.freeMove s.draws)
    else if (eligible s.toSystem).isSome then some .service
    else none

/-- R86: the event words serviced in `k` steps of the machine, up to the first that does not happen. -/
def stepTrace : Nat → State → List EventWord
  | 0, _ => []
  | k + 1, s =>
    match step s with
    | .next t => ((stepMove s).bind (fun m => servicedWord m s.toSystem)).toList ++ stepTrace k t
    | .fault _ => []
    | .refused _ => []

end Sys2Proof.Machine
end

