-- ==== Sys2Proof/Safety.lean ====
section
/-!
DEFINITION. What holds in every reachable state (10_state.md R38, R39), and what a fair run is (45_environment.md R180).
-/

namespace Sys2Proof.Machine

variable {n : Nat}

/-- INV4 (R38): a byte staged in a read phase is the byte of RES that the cursor has just passed. -/
def inv4 (s : System n) : Bool :=
  !(s.stg.full && s.phase.isRead)
    || (s.cur == .one && s.stg.data == loByte s.res)
    || (s.cur == .done && s.stg.data == hiByte s.res)

/-- PHASE ∈ {ADDR_W, RECEIVING, ADDR_R, TRANSMITTING}: the phases of an addressed transaction (R109). -/
def Phase.isAddressed (p : Phase) : Bool := p.isWrite || p.isRead

/-- The held condition fits the phase it was raised in (R109, R172-R176): an address match never waits in STOPPED, data
bytes come in a write, the master's NACK in a read, a stop at the end of an addressed transaction. -/
def heldFits (s : System n) : Bool :=
  match heldEvent s.pend with
  | some .amW | some .amR => s.phase != .stopped
  | some (.rx _) | some .ovr => s.phase.isWrite
  | some .nack => s.phase.isRead
  | some .stop => !s.addressed && s.phase.isAddressed
  | _ => true

/-- The held condition is an address match that the core has not serviced yet. -/
def matchHeld (s : System n) : Bool :=
  match heldEvent s.pend with
  | some .amW | some .amR => true
  | _ => false

/-- While the current transaction is the core's, PHASE is an addressed phase, once the address match has been serviced. -/
def addressedFits (s : System n) : Bool := !s.addressed || matchHeld s || s.phase.isAddressed

/-- The invariant of every reachable state: R39 (with INV1, INV2), INV4, and the two facts about the bus engine that make
them inductive. INV3 holds by the form of PEND. -/
def System.inv (s : System n) : Bool := s.wellFormed && inv4 s && heldFits s && addressedFits s

/-- INV5 (R38), between a state and the next: the result stays while a ready result is read. -/
def resultKept (s t : System n) : Prop :=
  s.phase.isRead = true → t.phase.isRead = true → s.cur ≠ .notReady → t.res = s.res

/-! ### The access matrix and the phase tables (R31, R109) -/

/-- The columns of R31, then the environment's fields of R171. -/
inductive Register where
  | sel
  | res
  | cur
  | stg
  | phase
  | acken
  | txreq
  | chen
  | pend
  | conv
  | addressed
  | mnack
  | mobs
  deriving DecidableEq, Repr

/-- The register holds the same value in both states. -/
def Register.same (r : Register) (s t : System n) : Prop :=
  match r with
  | .sel => t.sel = s.sel
  | .res => t.res = s.res
  | .cur => t.cur = s.cur
  | .stg => t.stg = s.stg
  | .phase => t.phase = s.phase
  | .acken => t.acken = s.acken
  | .txreq => t.txreq = s.txreq
  | .chen => t.chen = s.chen
  | .pend => t.pend = s.pend
  | .conv => t.conv = s.conv
  | .addressed => t.addressed = s.addressed
  | .mnack => t.mnack = s.mnack
  | .mobs => t.mobs = s.mobs

/-- The W entries of the access matrix (R31), row by row; the rows of the bus frames are those of M.addr, M.wr and M.rd,
with the environment's fields that R172, R173 and R175 write. -/
def rowWrites : Instr → List Register
  | .amW => [.phase, .txreq, .pend]
  | .amR => [.cur, .stg, .phase, .txreq, .pend]
  | .rx _ => [.sel, .res, .cur, .phase, .chen, .pend, .conv]
  | .txr => [.cur, .stg, .phase, .txreq]
  | .stop => [.phase, .acken, .pend]
  | .nack => [.pend]
  | .ovr => [.pend]
  | .rearm => [.phase, .acken]
  | .done _ => [.res, .cur, .stg, .conv]
  | .fail => [.res, .cur, .stg, .conv]
  | .reset => [.sel, .res, .cur, .stg, .phase, .acken, .txreq, .chen, .pend, .conv, .addressed, .mnack]
  | .busAddrW => [.pend, .addressed, .mnack, .mobs]
  | .busAddrR => [.pend, .addressed, .mnack, .mobs]
  | .busSel _ => [.pend, .mobs]
  | .busResLo _ _ => [.stg, .txreq, .pend, .mnack, .mobs]
  | .busResHi _ _ => [.stg, .txreq, .pend, .mnack, .mobs]

/-- The first table of R109: the phase after a service, none where it is unchanged. -/
def phaseAfter : Instr → Option Phase
  | .amW => some .addrW
  | .amR => some .addrR
  | .rx _ => some .receiving
  | .txr => some .transmitting
  | .stop => some .stopped
  | .rearm => some .idle
  | .reset => some .idle
  | .nack | .ovr | .done _ | .fail => none
  | .busAddrW | .busAddrR | .busSel _ | .busResLo _ _ | .busResHi _ _ => none

/-- The second table of R109, read by its columns: the core services that can occur in a phase, in runs from reset. -/
def eventsIn (p : Phase) : Instr → Bool
  | .amW | .amR => !p.isReserved && p != .stopped
  | .rx _ | .ovr => p.isWrite
  | .txr | .nack => p.isRead
  | .stop => p.isAddressed
  | .rearm => p == .stopped
  | .done _ | .fail | .reset => !p.isReserved
  | .busAddrW | .busAddrR | .busSel _ | .busResLo _ _ | .busResHi _ _ => false

/-! ### Runs and fairness (R180) -/

/-- A run of the whole system (R71, R208): a sequence of states, each got from the one before by the move named. Where no move
is named nothing happens: a run may end, and its master may stop interacting at any point (R180, log 11). -/
def IsRun (moves : Nat → Option Move) (run : Nat → State) : Prop :=
  ∀ k, match moves k with
    | some m => takeMove m (run k) = .next (run (k + 1))
    | none => run (k + 1) = run k

/-- The move at this point takes the core service `i`: left to the arbiter, or named by its event word. -/
def TakesService (m : Move) (i : Instr) : Prop := m = .service ∨ m = .code (encode i)

/-- R180: a service that stays eligible is taken (`rearm` among them), and a conversion that stays BUSY finishes. Nothing
is asked of the master, of `C.fail` or of `M.lose`. -/
def Fair (moves : Nat → Option Move) (run : Nat → State) : Prop :=
  (∀ k i, (∀ j, k ≤ j → eligible (run j).toSystem = some i) → ∃ j m, k ≤ j ∧ moves j = some m ∧ TakesService m i)
    ∧ (∀ k, (∀ j, k ≤ j → (run j).conv.st = .busy) → ∃ j v, k ≤ j ∧ moves j = some (.finish v))

end Sys2Proof.Machine
end

