-- ==== Sys2Proof/Certificates/Slice0/Obligations.lean ====
section
/-!
DEFINITION. The statements for the provers. There is no memory in this machine (20_memory.md R60), so a frame is about the
registers; where a next state is written as an update of the state before, every field that the update does not name is
unchanged.
-/

open Sys2Proof Sys2Proof.Machine

/-! ### Encoding -/

/-- R81, R82, R88, R89: event words, address bytes and a selector written out from the encoding, read by the decoder. The last
two clauses are the two bytes of a read (R90), each with the acknowledge bit that follows it (R91): that the bit is an operand
of the frame, and that 0 is ACK, is the model's reading (log 9). -/
def Obligations.ListedWordsDecode : Prop :=
  decodeTableWord 32 0x10000000 = some .amW ∧ decodeTableWord 32 0x10000001 = some .amR
    ∧ decodeTableWord 32 0x20000003 = some (.rx 0x03) ∧ decodeTableWord 32 0x30000000 = some .txr
    ∧ decodeTableWord 32 0x40000000 = some .stop ∧ decodeTableWord 32 0x50000000 = some .nack
    ∧ decodeTableWord 32 0x60000000 = some .ovr ∧ decodeTableWord 32 0x70000ABC = some (.done 0x0ABC)
    ∧ decodeTableWord 32 0x80000000 = some .fail ∧ decodeTableWord 32 0x90000000 = some .rearm
    ∧ decodeTableWord 32 0xA0000000 = some .reset ∧ decode (.busAddressByte 0xA0) = some .busAddrW
    ∧ decode (.busAddressByte 0xA1) = some .busAddrR ∧ decode (.busWriteDataByte 0x09) = some (.busSel 0x09)
    ∧ decode (.busReadDataByte0 0xBC 0) = some (.busResLo 0xBC .ack)
    ∧ decode (.busReadDataByte1 0x0A 1) = some (.busResHi 0x0A .nack)

/-- R80-R90: the decoder reads back every instruction, with every operand, from its encoding. -/
def Obligations.DecodeReadsBackEncode : Prop :=
  ∀ i : Instr, decode (encode i) = some i

/-- R85: a code that decodes is exactly the encoding of what it decodes to: no bit is dropped, no second encoding exists. -/
def Obligations.DecodedCodeIsTheEncoding : Prop :=
  ∀ (c : Code) (i : Instr), decode c = some i → encode i = c

/-- R84: a word decodes to nothing exactly when it is in the INVALID space; a replay refuses such a word by name. -/
def Obligations.InvalidWordsNameNoEvent : Prop :=
  (∀ w : EventWord, decodeEvent w = none ↔ w.invalid = true)
    ∧ ∀ (w : EventWord) (s : State), w.invalid = true →
        takeMove (.code (.event32 w)) s = .refused .invalidEncoding

/-- R85: the decoder is the mask-and-match table: a word belongs to the row of what it decodes to and to no other, and a
word that decodes to nothing belongs to no row. -/
def Obligations.DecoderIsTheOpcodeTable : Prop :=
  ∀ w : EventWord,
    (eventRows.filter (fun r => r.holds w)).map EventRow.mnemonic = (decodeEvent w).toList.map Instr.mnemonic

/-! ### Bus-side services -/

/-- R101: `am.w` clears its condition, enters ADDR_W and drops the transmit request; nothing else changes. It is stuck
where it is not eligible, and it does not occur in STOPPED. -/
def Obligations.AddressMatchWriteService : Prop :=
  decodeEvent 0x10000000 = some .amW
    ∧ (∀ s : State, s.pend = 0x10000000 → s.conv.st ≠ .eoc → s.conv.st ≠ .err →
        exec .amW s = .next { s with pend := 0, phase := .addrW, txreq := false })
    ∧ (∀ s : State, ¬(s.pend = 0x10000000 ∧ s.conv.st ≠ .eoc ∧ s.conv.st ≠ .err) →
        exec .amW s = .fault .notEligible)
    ∧ (∀ s t : State, s.toSystem.inv = true → exec .amW s = .next t → s.phase ≠ .stopped)

/-- R102, for every configuration: `am.r` clears its condition, flushes STG (DATA stays), rewinds a ready cursor where
REWIND_ON_READ says so, enters ADDR_R and requests byte 0. -/
def Obligations.AddressMatchReadEffect : Prop :=
  ∀ (c : Config) (s : System c.n),
    amREffect c s =
      { s with
        pend := 0
        stg := ⟨false, s.stg.data⟩
        cur := if c.rewindOnRead = true ∧ s.cur ≠ .notReady then .zero else s.cur
        phase := .addrR
        txreq := true }

/-- R102 on this hardware: `am.r` is taken exactly where it is eligible. -/
def Obligations.AddressMatchReadService : Prop :=
  decodeEvent 0x10000001 = some .amR
    ∧ (∀ s : State, s.pend = 0x10000001 → s.conv.st ≠ .eoc → s.conv.st ≠ .err →
        exec .amR s = .next
          { s with
            pend := 0
            stg := ⟨false, s.stg.data⟩
            cur := if s.cur = .notReady then .notReady else .zero
            phase := .addrR
            txreq := true })
    ∧ (∀ s : State, ¬(s.pend = 0x10000001 ∧ s.conv.st ≠ .eoc ∧ s.conv.st ≠ .err) →
        exec .amR s = .fault .notEligible)

/-- R103, R141, for every number of channels: a valid byte selects, fans out, makes the cursor NOT_READY and arms; an
invalid byte sets the sentinel and the cursor to 0. -/
def Obligations.ByteReceivedEffect : Prop :=
  ∀ (n : Nat) (s : System n) (b : Byte),
    rxEffect b s =
      if b.toNat < n then
        { s with
          pend := 0, sel := b, phase := .receiving
          chen := onehot n b.toNat, cur := .notReady, conv := { s.conv with st := .busy, ch := b } }
      else
        { s with pend := 0, sel := b, phase := .receiving, res := 0xFFFF, cur := .zero }

/-- R103 on this hardware (N = 7): the valid and the invalid selection, and where `rx` is stuck. -/
def Obligations.ByteReceivedService : Prop :=
  (∀ b : Byte, decodeEvent (0x200000#24 ++ b) = some (.rx b))
    ∧ (∀ (s : State) (b : Byte), s.pend = 0x200000#24 ++ b → s.conv.st ≠ .eoc → s.conv.st ≠ .err → b.toNat ≤ 6 →
        exec (.rx b) s = .next
          { s with
            pend := 0, sel := b, phase := .receiving
            chen := onehot 7 b.toNat, cur := .notReady, conv := { s.conv with st := .busy, ch := b } })
    ∧ (∀ (s : State) (b : Byte), s.pend = 0x200000#24 ++ b → s.conv.st ≠ .eoc → s.conv.st ≠ .err → 7 ≤ b.toNat →
        exec (.rx b) s = .next { s with pend := 0, sel := b, phase := .receiving, res := 0xFFFF, cur := .zero })
    ∧ (∀ (s : State) (b : Byte), ¬(s.pend = 0x200000#24 ++ b ∧ s.conv.st ≠ .eoc ∧ s.conv.st ≠ .err) →
        exec (.rx b) s = .fault .notEligible)

/-- R104: `txr` consumes the request, enters TRANSMITTING and pushes the byte under a ready cursor; at NOT_READY and DONE
nothing is pushed. -/
def Obligations.ReadyToTransmitService : Prop :=
  decodeEvent 0x30000000 = some .txr
    ∧ (∀ s : State, s.pend = 0 → s.conv.st ≠ .eoc → s.conv.st ≠ .err → (s.phase = .addrR ∨ s.phase = .transmitting) →
        s.stg.full = false → s.txreq = true →
        exec .txr s = .next
          (match s.cur with
          | .zero =>
            { s with
              txreq := false, phase := .transmitting, stg := ⟨true, s.res.extractLsb' 0 8⟩, cur := .one }
          | .one =>
            { s with
              txreq := false, phase := .transmitting, stg := ⟨true, s.res.extractLsb' 8 8⟩, cur := .done }
          | .done => { s with txreq := false, phase := .transmitting }
          | .notReady => { s with txreq := false, phase := .transmitting }))
    ∧ (∀ s : State,
        ¬(s.pend = 0 ∧ s.conv.st ≠ .eoc ∧ s.conv.st ≠ .err ∧ (s.phase = .addrR ∨ s.phase = .transmitting)
          ∧ s.stg.full = false ∧ s.txreq = true) →
        exec .txr s = .fault .notEligible)

/-- R105: `stop` clears its condition, enters STOPPED and turns address acknowledgement off; no other bookkeeping. The
address phase that follows is answered NACK. -/
def Obligations.StopService : Prop :=
  decodeEvent 0x40000000 = some .stop
    ∧ (∀ s : State, s.pend = 0x40000000 → s.conv.st ≠ .eoc → s.conv.st ≠ .err →
        exec .stop s = .next { s with pend := 0, phase := .stopped, acken := false })
    ∧ (∀ s : State, ¬(s.pend = 0x40000000 ∧ s.conv.st ≠ .eoc ∧ s.conv.st ≠ .err) →
        exec .stop s = .fault .notEligible)
    ∧ ∀ (s t : State) (d : Dir), exec .stop s = .next t →
        takeMove (moveAddr 0x50 d) t = .next { t with mobs := t.mobs ++ [.nack], addressed := false }

/-- R106, R107: `nack` and `ovr` clear their condition and change nothing else. -/
def Obligations.BusErrorServices : Prop :=
  decodeEvent 0x50000000 = some .nack ∧ decodeEvent 0x60000000 = some .ovr
    ∧ (∀ s : State, s.pend = 0x50000000 → s.conv.st ≠ .eoc → s.conv.st ≠ .err →
        exec .nack s = .next { s with pend := 0 })
    ∧ (∀ s : State, ¬(s.pend = 0x50000000 ∧ s.conv.st ≠ .eoc ∧ s.conv.st ≠ .err) →
        exec .nack s = .fault .notEligible)
    ∧ (∀ s : State, s.pend = 0x60000000 → s.conv.st ≠ .eoc → s.conv.st ≠ .err →
        exec .ovr s = .next { s with pend := 0 })
    ∧ (∀ s : State, ¬(s.pend = 0x60000000 ∧ s.conv.st ≠ .eoc ∧ s.conv.st ≠ .err) →
        exec .ovr s = .fault .notEligible)

/-- R108: `rearm` leaves STOPPED for IDLE and turns address acknowledgement on. -/
def Obligations.RearmService : Prop :=
  decodeEvent 0x90000000 = some .rearm
    ∧ (∀ s : State, s.phase = .stopped → s.pend = 0 → s.conv.st ≠ .eoc → s.conv.st ≠ .err →
        exec .rearm s = .next { s with phase := .idle, acken := true })
    ∧ (∀ s : State, ¬(s.phase = .stopped ∧ s.pend = 0 ∧ s.conv.st ≠ .eoc ∧ s.conv.st ≠ .err) →
        exec .rearm s = .fault .notEligible)

/-! ### Conversion side -/

/-- R144, R145, R146, for every configuration: a conversion that ends is captured exactly when the cursor is NOT_READY or
CAPTURE_AFTER_INVALID is set, `fail` with the sentinel; with the gate closed only CONV.ST changes. -/
def Obligations.CaptureGate : Prop :=
  ∀ (c : Config) (s : System c.n),
    (s.cur = .notReady ∨ c.captureAfterInvalid = true →
      doneEffect c s =
          { s with
            res := s.conv.val, cur := .one, stg := ⟨true, s.conv.val.extractLsb' 0 8⟩
            conv := { s.conv with st := .idle } }
        ∧ failEffect c s =
          { s with res := 0xFFFF, cur := .one, stg := ⟨true, 0xFF⟩, conv := { s.conv with st := .idle } })
    ∧ (¬(s.cur = .notReady ∨ c.captureAfterInvalid = true) →
      doneEffect c s = { s with conv := { s.conv with st := .idle } }
        ∧ failEffect c s = { s with conv := { s.conv with st := .idle } })

/-- R145 on this hardware: `done v` is taken exactly where a conversion has finished with `v`. -/
def Obligations.ConversionCompleteService : Prop :=
  (∀ v : Half, decodeEvent (0x7000#16 ++ v) = some (.done v))
    ∧ (∀ (s : State) (v : Half), s.conv.st = .eoc → s.conv.val = v → s.cur = .notReady →
        exec (.done v) s = .next
          { s with
            res := v, cur := .one, stg := ⟨true, v.extractLsb' 0 8⟩, conv := { s.conv with st := .idle } })
    ∧ (∀ (s : State) (v : Half), s.conv.st = .eoc → s.conv.val = v → s.cur ≠ .notReady →
        exec (.done v) s = .next { s with conv := { s.conv with st := .idle } })
    ∧ (∀ (s : State) (v : Half), ¬(s.conv.st = .eoc ∧ s.conv.val = v) → exec (.done v) s = .fault .notEligible)

/-- R146 on this hardware: `fail` is taken exactly where a conversion has failed. -/
def Obligations.ConversionFailedService : Prop :=
  decodeEvent 0x80000000 = some .fail
    ∧ (∀ s : State, s.conv.st = .err → s.cur = .notReady →
        exec .fail s = .next
          { s with res := 0xFFFF, cur := .one, stg := ⟨true, 0xFF⟩, conv := { s.conv with st := .idle } })
    ∧ (∀ s : State, s.conv.st = .err → s.cur ≠ .notReady →
        exec .fail s = .next { s with conv := { s.conv with st := .idle } })
    ∧ (∀ s : State, s.conv.st ≠ .err → exec .fail s = .fault .notEligible)

/-- R141, R11: on this hardware the bytes 0x00 to 0x06 are valid selectors and every other byte is invalid, unsigned. -/
def Obligations.ValidSelectors : Prop :=
  ∀ (n : Nat) (b : Byte), (validSelector n b = true ↔ b.toNat < n) ∧ (validSelector 7 b = true ↔ b.toNat ≤ 6)

/-- R142, R143, R140, R12, for every good configuration: after a valid selection exactly the selected channel's bit is set,
exactly its physical channel is enabled, it is the one the armed conversion samples, and no other index names it. -/
def Obligations.FanOutEnablesOneChannel : Prop :=
  ∀ (c : Config) (s : System c.n) (b : Byte), c.wellFormed = true → b.toNat < c.n →
    (∀ j, j < c.n → ((rxEffect b s).chen.getLsbD j = true ↔ j = b.toNat))
      ∧ ∃ p, phys c b.toNat = some p ∧ enabledPhys c (rxEffect b s) = [p] ∧ sampled c (rxEffect b s) = some p
          ∧ ∀ j, j ≠ b.toNat → phys c j ≠ some p

/-! ### Reset and boot -/

/-- R230: reset is accepted in every state and sets every register; MOBS stays. The transaction in progress is abandoned:
no data byte, read byte or stop of it reaches the core. -/
def Obligations.ResetService : Prop :=
  decodeEvent 0xA0000000 = some .reset
    ∧ (∀ s : State, exec .reset s = .next
        { s with
          sel := 0xFF, res := 0xFFFF, cur := .zero, stg := ⟨false, 0x00⟩, phase := .idle, acken := true, txreq := false
          pend := 0, chen := 0, conv := ⟨.idle, 0x00, 0x0000⟩, addressed := false, mnack := false })
    ∧ ∀ (s t : State), exec .reset s = .next t →
        (∀ b : Byte, exec (.busSel b) t = .fault .notEligible ∧ takeMove (.lose b) t = .fault .notEligible)
          ∧ (∀ a : Ack, takeMove (.rd a) t = .fault .notEligible)
          ∧ takeMove .stop t = .next t

/-- R37, and R171 for the environment's three fields: the machine after power-on. -/
def Obligations.PowerOnState : Prop :=
  State.reset.toSystem =
    { sel := 0xFF, res := 0xFFFF, cur := .zero, stg := ⟨false, 0x00⟩, phase := .idle, acken := true, txreq := false
      pend := 0x00000000, chen := 0b0000000, conv := ⟨.idle, 0x00, 0x0000⟩, addressed := false, mnack := false
      mobs := [] }

/-- R11, R12, R219, R233: boot ends in the reset state for a configuration that the spec defines, and refuses any other by
name. -/
def Obligations.BootChecksTheConfiguration : Prop :=
  ∀ c : Config,
    ((1 ≤ c.n ∧ c.n ≤ 256) ∧ c.channelMap.length = c.n ∧ c.channelMap.Nodup → boot c = .next (System.reset c.n))
      ∧ (¬((1 ≤ c.n ∧ c.n ≤ 256) ∧ c.channelMap.length = c.n ∧ c.channelMap.Nodup) → boot c = .refused .badConfig)

/-! ### Environment steps and bus frames -/

/-- R172: an own-address phase is acknowledged while ACKEN is 1 and raises `am.w` or `am.r`; while ACKEN is 0, and for any
other address, it is answered NACK and nothing reaches the core; it waits while a condition is pending. -/
def Obligations.AddressPhase : Prop :=
  (∀ s : State, s.pend = 0 → s.acken = true →
      exec .busAddrW s = .next
          { s with mobs := s.mobs ++ [.ack], addressed := true, mnack := false, pend := 0x10000000 }
        ∧ exec .busAddrR s = .next
          { s with mobs := s.mobs ++ [.ack], addressed := true, mnack := false, pend := 0x10000001 })
    ∧ (∀ s : State, s.pend = 0 → s.acken = false →
        exec .busAddrW s = .next { s with mobs := s.mobs ++ [.nack], addressed := false }
          ∧ exec .busAddrR s = .next { s with mobs := s.mobs ++ [.nack], addressed := false })
    ∧ (∀ s : State, s.pend ≠ 0 → exec .busAddrW s = .fault .notEligible ∧ exec .busAddrR s = .fault .notEligible
        ∧ ∀ (a : BusAddr) (d : Dir), takeMove (moveAddr a d) s = .fault .notEligible)
    ∧ (∀ s : State, takeMove (moveAddr 0x50 .w) s = exec .busAddrW s ∧ takeMove (moveAddr 0x50 .r) s = exec .busAddrR s)
    ∧ (∀ (s : State) (a : BusAddr) (d : Dir), a ≠ 0x50 → s.pend = 0 →
        takeMove (moveAddr a d) s = .next { s with mobs := s.mobs ++ [.nack], addressed := false })

/-- R173: a data byte of a write is acknowledged, whatever its value, and raises `rx`. -/
def Obligations.WriteDataByte : Prop :=
  (∀ (s : State) (c : Byte), s.pend = 0 → s.addressed = true → (s.phase = .addrW ∨ s.phase = .receiving) →
      exec (.busSel c) s = .next { s with mobs := s.mobs ++ [.ack], pend := 0x200000#24 ++ c })
    ∧ (∀ (s : State) (c : Byte), ¬(s.pend = 0 ∧ s.addressed = true ∧ (s.phase = .addrW ∨ s.phase = .receiving)) →
        exec (.busSel c) s = .fault .notEligible)

/-- R174: a lost data byte is acknowledged, raises `ovr` and reaches no register, whatever it was. -/
def Obligations.LostDataByte : Prop :=
  (∀ (s : State) (b : Byte), s.pend = 0 → s.addressed = true → (s.phase = .addrW ∨ s.phase = .receiving) →
      takeMove (.lose b) s = .next { s with mobs := s.mobs ++ [.ack], pend := 0x60000000 })
    ∧ (∀ (s : State) (b : Byte), ¬(s.pend = 0 ∧ s.addressed = true ∧ (s.phase = .addrW ∨ s.phase = .receiving)) →
        takeMove (.lose b) s = .fault .notEligible)

/-- R175: the master takes the staged byte; its ACK requests the next byte, its NACK ends the stream and raises `nack`;
with no byte staged the step is not possible (clock stretching). -/
def Obligations.MasterReadTakesStagedByte : Prop :=
  (∀ s : State, s.pend = 0 → s.addressed = true → (s.phase = .addrR ∨ s.phase = .transmitting) → s.stg.full = true →
      s.mnack = false →
      takeMove (.rd .ack) s = .next
          { s with mobs := s.mobs ++ [.byte s.stg.data], stg := ⟨false, s.stg.data⟩, txreq := true }
        ∧ takeMove (.rd .nack) s = .next
          { s with
            mobs := s.mobs ++ [.byte s.stg.data], stg := ⟨false, s.stg.data⟩, mnack := true, pend := 0x50000000 })
    ∧ (∀ (s : State) (a : Ack),
        ¬(s.pend = 0 ∧ s.addressed = true ∧ (s.phase = .addrR ∨ s.phase = .transmitting) ∧ s.stg.full = true
          ∧ s.mnack = false) →
        takeMove (.rd a) s = .fault .notEligible)

/-- R175, R90: the read frames are the master's read, with the byte the device drives. That the first frame is the one
before both bytes have been pushed, and the second the one after, is the model's inference from R38 INV4 (log 10). -/
def Obligations.ReadFrames : Prop :=
  (∀ (s : State) (d : Byte), s.pend = 0 → s.addressed = true → (s.phase = .addrR ∨ s.phase = .transmitting) →
      s.stg = ⟨true, d⟩ → s.mnack = false → s.cur ≠ .done →
      exec (.busResLo d .ack) s = .next
          { s with mobs := s.mobs ++ [.byte d], stg := ⟨false, d⟩, txreq := true }
        ∧ exec (.busResLo d .nack) s = .next
          { s with mobs := s.mobs ++ [.byte d], stg := ⟨false, d⟩, mnack := true, pend := 0x50000000 })
    ∧ (∀ (s : State) (d : Byte), s.pend = 0 → s.addressed = true → (s.phase = .addrR ∨ s.phase = .transmitting) →
      s.stg = ⟨true, d⟩ → s.mnack = false → s.cur = .done →
      exec (.busResHi d .ack) s = .next
          { s with mobs := s.mobs ++ [.byte d], stg := ⟨false, d⟩, txreq := true }
        ∧ exec (.busResHi d .nack) s = .next
          { s with mobs := s.mobs ++ [.byte d], stg := ⟨false, d⟩, mnack := true, pend := 0x50000000 })
    ∧ (∀ (s : State) (d : Byte) (a : Ack), s.stg ≠ ⟨true, d⟩ →
        exec (.busResLo d a) s = .fault .notEligible ∧ exec (.busResHi d a) s = .fault .notEligible)

/-- R176: a stop reaches the core exactly when its transaction was addressed to the core. -/
def Obligations.MasterStop : Prop :=
  (∀ s : State, s.pend = 0 → s.addressed = true →
      takeMove .stop s = .next { s with pend := 0x40000000, addressed := false })
    ∧ (∀ s : State, s.pend = 0 → s.addressed = false → takeMove .stop s = .next s)
    ∧ (∀ s : State, s.pend ≠ 0 → takeMove .stop s = .fault .notEligible)

/-- R177, R178: a conversion in flight finishes with any value, and nothing else changes; it never fails on this hardware;
with CONV_CAN_FAIL it can. -/
def Obligations.ConverterSteps : Prop :=
  (∀ (s : State) (v : Half), s.conv.st = .busy → takeMove (.finish v) s = .next { s with conv := ⟨.eoc, s.conv.ch, v⟩ })
    ∧ (∀ (s : State) (v : Half), s.conv.st ≠ .busy → takeMove (.finish v) s = .fault .notEligible)
    ∧ (∀ s : State, takeMove .convFail s = .fault .notEligible)
    ∧ (∀ (c : Config) (s : System c.n), c.convCanFail = true → s.conv.st = .busy →
        cFail c s = .next { s with conv := { s.conv with st := .err } })
    ∧ (∀ (c : Config) (s : System c.n), ¬(c.convCanFail = true ∧ s.conv.st = .busy) → cFail c s = .fault .notEligible)

/-! ### The step -/

/-- R86, R208: when the next move is a code that decodes, one step is exec of the instruction, with the move taken off the
agenda; when it is left to the core, one step is exec of the eligible service. -/
def Obligations.StepRunsTheDecodedInstruction : Prop :=
  (∀ (s : State) (c : Code) (i : Instr) (rest : List Move), s.toSystem.wellFormed = true → s.agenda = .code c :: rest →
      decode c = some i → step s = exec i { s with agenda := rest })
    ∧ (∀ (s : State) (i : Instr) (rest : List Move), s.toSystem.wellFormed = true → s.agenda = .service :: rest →
      eligible s.toSystem = some i → step s = exec i { s with agenda := rest })

/-- The model's way to place a table word (log 3): in every well-formed state the very next step runs the instruction it
decodes to, in the state in which its event is presented, and answers a next state. -/
def Obligations.PlacedWordRunsNext : Prop :=
  ∀ (s : State) (nbits w : Nat) (i : Instr), s.toSystem.wellFormed = true → decodeTableWord nbits w = some i →
    step (s.withFetchWord nbits w) = exec i { s with toSystem := present i s.toSystem }
      ∧ ∃ t, step (s.withFetchWord nbits w) = .next t

/-- The free choice (log 1, 2): with no move fixed the machine never stops, and what it does is one possible move, or
waiting where the core has nothing to do. -/
def Obligations.FreeChoiceNeverStops : Prop :=
  ∀ s : State, s.toSystem.wellFormed = true → s.agenda = [] →
    ∃ t, step s = .next t
      ∧ ((∃ m, takeMove m { s with draws := s.draws + 1 } = .next t)
        ∨ (eligible s.toSystem = none ∧ t = { s with draws := s.draws + 1 }))

/-- R39, R219: the machine declines an ill-formed state by name, and no state that keeps the invariant is one. -/
def Obligations.IllFormedStatesAreDeclined : Prop :=
  (∀ s : State, s.toSystem.wellFormed = false → step s = .refused .illFormedState)
    ∧ ∀ s t : State, s.toSystem.inv = true → step s = .next t → step t ≠ .refused .illFormedState

/-! ### Whole-machine rules -/

/-- R38, R39: the invariant (well-formedness with INV1 and INV2, INV4, and that the held condition and ADDRESSED fit the
phase) is kept by every step. -/
def Obligations.EveryStepKeepsTheInvariant : Prop :=
  ∀ s t : State, s.toSystem.inv = true → step s = .next t → t.toSystem.inv = true

/-- R37, R38: the invariant holds after reset, for any number of channels. -/
def Obligations.ResetMeetsTheInvariant : Prop :=
  ∀ n : Nat, (System.reset n).inv = true

/-- R38 INV5, R63: while a ready result is being read, no step changes it. -/
def Obligations.ResultKeptWhileRead : Prop :=
  ∀ s t : State, s.toSystem.inv = true → step s = .next t → resultKept s.toSystem t.toSystem

/-- R90, R63: every byte the master receives is the low or the high byte of RES, as the cursor says, and RES stays. -/
def Obligations.DeliveredByteIsOfTheResult : Prop :=
  ∀ (s t : State) (a : Ack), s.toSystem.inv = true → takeMove (.rd a) s = .next t →
    t.res = s.res
      ∧ ((s.cur = .one ∧ t.mobs = s.mobs ++ [.byte (s.res.extractLsb' 0 8)])
        ∨ (s.cur = .done ∧ t.mobs = s.mobs ++ [.byte (s.res.extractLsb' 8 8)]))

/-- R200: the eligible service always runs to its end, in every state. -/
def Obligations.EligibleServiceCompletes : Prop :=
  ∀ (s : State) (i : Instr), eligible s.toSystem = some i → (∃ t, exec i s = .next t) ∧ takeMove .service s = exec i s

/-- R208: the arbiter's order, in every state. -/
def Obligations.ArbiterOrder : Prop :=
  ∀ (n : Nat) (s : System n),
    (s.conv.st = .eoc → eligible s = some (.done s.conv.val))
      ∧ (s.conv.st = .err → eligible s = some .fail)
      ∧ (s.conv.st ≠ .eoc → s.conv.st ≠ .err →
          (s.pend = 0x10000000 → eligible s = some .amW)
            ∧ (s.pend = 0x10000001 → eligible s = some .amR)
            ∧ (∀ b : Byte, s.pend = 0x200000#24 ++ b → eligible s = some (.rx b))
            ∧ (s.pend = 0x40000000 → eligible s = some .stop)
            ∧ (s.pend = 0x50000000 → eligible s = some .nack)
            ∧ (s.pend = 0x60000000 → eligible s = some .ovr)
            ∧ (s.pend = 0 →
                eligible s =
                  if (s.phase = .addrR ∨ s.phase = .transmitting) ∧ s.stg.full = false ∧ s.txreq = true then some .txr
                  else if s.phase = .stopped then some .rearm
                  else none))

/-- R208, R205: while a completion or failure is pending, no bus-side service is taken. -/
def Obligations.CompletionOutranksTheBus : Prop :=
  ∀ (s t : State) (i : Instr), (s.conv.st = .eoc ∨ s.conv.st = .err) → exec i s = .next t →
    i ≠ .amW ∧ i ≠ .amR ∧ (∀ b, i ≠ .rx b) ∧ i ≠ .txr ∧ i ≠ .stop ∧ i ≠ .nack ∧ i ≠ .ovr ∧ i ≠ .rearm

/-- R31: an instruction leaves every register unchanged that its row of the access matrix does not mark W. -/
def Obligations.AccessMatrixIsKept : Prop :=
  ∀ (i : Instr) (s t : State) (r : Register), exec i s = .next t → r ∉ rowWrites i →
    r.same s.toSystem t.toSystem ∧ t.agenda = s.agenda ∧ t.draws = s.draws

/-- R109, first table: the phase after every service. -/
def Obligations.PhaseAfterService : Prop :=
  ∀ (i : Instr) (s t : State), exec i s = .next t →
    (∀ p, phaseAfter i = some p → t.phase = p) ∧ (phaseAfter i = none → t.phase = s.phase)

/-- R109, second table: which core service the arbiter can find in which phase, in the states of the invariant. -/
def Obligations.EventsOfEachPhase : Prop :=
  ∀ (s : State) (i : Instr), s.toSystem.inv = true → eligible s.toSystem = some i → eventsIn s.phase i = true

/-- R21: the SEL held before a service decides nothing: another value of it changes nothing but SEL itself, and not even
that after `rx`, which reads the SEL it has just written, and `reset`. -/
def Obligations.OldSelectorDecidesNothing : Prop :=
  ∀ (i : Instr) (s t : State) (x : Byte), exec i s = .next t →
    ((∃ b, i = .rx b) ∨ i = .reset → exec i { s with sel := x } = .next t)
      ∧ (¬((∃ b, i = .rx b) ∨ i = .reset) → exec i { s with sel := x } = .next { t with sel := x })

/-- R179, R207: a pending condition holds the bus: no bus-engine step is possible, and no move replaces it by another. -/
def Obligations.OneBusConditionAtATime : Prop :=
  (∀ (s : State) (c d : Byte) (a : Ack) (x : BusAddr) (y : Dir), s.pend ≠ 0 →
      takeMove (moveAddr x y) s = .fault .notEligible
        ∧ exec .busAddrW s = .fault .notEligible ∧ exec .busAddrR s = .fault .notEligible
        ∧ exec (.busSel c) s = .fault .notEligible ∧ exec (.busResLo d a) s = .fault .notEligible
        ∧ exec (.busResHi d a) s = .fault .notEligible ∧ takeMove (.lose c) s = .fault .notEligible
        ∧ takeMove (.rd a) s = .fault .notEligible ∧ takeMove .stop s = .fault .notEligible)
    ∧ ∀ (m : Move) (s t : State), s.pend ≠ 0 → takeMove m s = .next t → t.pend = s.pend ∨ t.pend = 0

/-- R188: in a stretched state only the master's stop or an address phase can move the system, and reset (R230). -/
def Obligations.OnlyTheMasterEndsAStretch : Prop :=
  ∀ (m : Move) (s t : State), stretched s.toSystem = true → takeMove m s = .next t →
    m = .stop ∨ (∃ b, m = .code (.busAddressByte b)) ∨ m = .code (.event32 0xA0000000)

/-! ### Transactions -/

/-- R182, R94, R86: `WRITE c` with every service taken: what it leaves, for a valid and an invalid byte, and its trace. -/
def Obligations.WriteTransaction : Prop :=
  ∀ (s : State) (c : Byte), s.pend = 0 → s.acken = true → s.conv.st ≠ .eoc → s.conv.st ≠ .err →
    ∃ t, takeMoves [moveAddr 0x50 .w, .service, moveWr c, .service, .stop, .service, .service] s = .next t
      ∧ t.sel = c ∧ t.phase = .idle ∧ t.acken = true ∧ t.pend = 0 ∧ t.addressed = false
      ∧ t.mobs = s.mobs ++ [.ack, .ack]
      ∧ (c.toNat ≤ 6 → t.cur = .notReady ∧ t.conv = ⟨.busy, c, s.conv.val⟩ ∧ t.chen = onehot 7 c.toNat ∧ t.res = s.res)
      ∧ (7 ≤ c.toNat → t.res = 0xFFFF ∧ t.cur = .zero ∧ t.conv = s.conv ∧ t.chen = s.chen)
      ∧ traceOf [moveAddr 0x50 .w, .service, moveWr c, .service, .stop, .service, .service] s
          = [0x10000000, 0x200000#24 ++ c, 0x40000000, 0x90000000]

/-- R183, R94: `READ2` of a ready result gives the master its low byte and then its high byte. -/
def Obligations.ReadTransaction : Prop :=
  ∀ s : State, s.pend = 0 → s.acken = true → s.conv.st ≠ .eoc → s.conv.st ≠ .err → s.cur ≠ .notReady →
    ∃ t, takeMoves
        [moveAddr 0x50 .r, .service, .service, .rd .ack, .service, .rd .nack, .service, .stop, .service, .service] s
          = .next t
      ∧ t.mobs = s.mobs ++ [.ack, .byte (s.res.extractLsb' 0 8), .byte (s.res.extractLsb' 8 8)]
      ∧ t.res = s.res ∧ t.cur = .done ∧ t.phase = .idle ∧ t.acken = true ∧ t.conv = s.conv

/-- R183, R185: `SELREAD c` of a valid channel: the read is stretched until the conversion ends, and then gives the two
bytes of its value, whatever it is. -/
def Obligations.SelectThenReadTransaction : Prop :=
  ∀ (s : State) (c : Byte) (v : Half), s.pend = 0 → s.acken = true → s.conv.st ≠ .eoc → s.conv.st ≠ .err →
    c.toNat ≤ 6 →
    ∃ u t, takeMoves [moveAddr 0x50 .w, .service, moveWr c, .service, moveAddr 0x50 .r, .service, .service] s = .next u
      ∧ clockHeld u.toSystem = true ∧ u.cur = .notReady
      ∧ takeMoves [.finish v, .service, .rd .ack, .service, .rd .nack, .service, .stop, .service, .service] u = .next t
      ∧ t.mobs = s.mobs ++ [.ack, .ack, .ack, .byte (v.extractLsb' 0 8), .byte (v.extractLsb' 8 8)]
      ∧ t.res = v ∧ t.sel = c ∧ t.phase = .idle

/-- R186, R235: a master that asks for a third byte is held: nothing is staged, nothing is pending, and RES stays. -/
def Obligations.ThirdByteIsNeverSupplied : Prop :=
  ∀ s : State, s.pend = 0 → s.addressed = true → (s.phase = .addrR ∨ s.phase = .transmitting) → s.stg.full = true →
    s.mnack = false → s.cur = .done → s.conv.st = .idle →
    ∃ t, takeMoves [.rd .ack, .service] s = .next t ∧ stretched t.toSystem = true
      ∧ t.mobs = s.mobs ++ [.byte s.stg.data] ∧ t.res = s.res ∧ t.cur = .done

/-- R187, R94: `PROBE` changes no register of the file, nor CHEN, STG and CONV. -/
def Obligations.ProbeChangesNoRegister : Prop :=
  ∀ s : State, s.pend = 0 → s.acken = true → s.conv.st ≠ .eoc → s.conv.st ≠ .err →
    takeMoves [moveAddr 0x50 .w, .service, .stop, .service, .service] s
      = .next { s with mobs := s.mobs ++ [.ack], addressed := false, mnack := false, txreq := false, phase := .idle }

/-- R94, R237, R176: an attempt that is answered NACK, and the stop that abandons it, leave the core as it was. -/
def Obligations.NackedAttemptLeavesTheCore : Prop :=
  ∀ (s : State) (d : Dir), s.pend = 0 → s.acken = false →
    takeMoves (abandonedAttempt d) s = .next { s with mobs := s.mobs ++ [.nack], addressed := false }

/-- R86: an event word is accepted exactly where its service is eligible, payload and all, and `reset` always; a word that is
well formed and not accepted is stuck. -/
def Obligations.WordAcceptedWhereEligible : Prop :=
  ∀ (s : State) (w : EventWord) (i : Instr), decodeEvent w = some i →
    (i = .reset ∨ eligible s.toSystem = some i → takeMove (moveWord w) s = exec i s ∧ ∃ t, exec i s = .next t)
      ∧ (¬(i = .reset ∨ eligible s.toSystem = some i) → takeMove (moveWord w) s = .fault .notEligible)

/-- R86: a run is recorded as the list of event words that it services, in order, and the run with each service met as its
recorded word ends in the same state. -/
def Obligations.TraceReplays : Prop :=
  ∀ (ms : List Move) (s t : State), takeMoves ms s = .next t →
    takeMoves (replayOf ms s) s = .next t
      ∧ (replayOf ms s).filterMap eventWordIn = traceOf ms s
      ∧ traceOf (replayOf ms s) s = traceOf ms s

/-- R208, R86: the move that is recorded for a step is the one that the step takes; where none is recorded the system waits. -/
def Obligations.RecordedMoveIsTaken : Prop :=
  ∀ s t : State, step s = .next t →
    match stepMove s with
    | some m => ∃ u, u.toSystem = s.toSystem ∧ takeMove m u = .next t
    | none => t.toSystem = s.toSystem ∧ eligible s.toSystem = none

/-- R149, C3: a conversion left in flight by an invalid selection finishes, and its result is discarded. -/
def Obligations.SupersededResultIsDiscarded : Prop :=
  ∀ (s : State) (v : Half), s.conv.st = .busy → s.cur ≠ .notReady →
    takeMoves [.finish v, .service] s = .next { s with conv := ⟨.idle, s.conv.ch, v⟩ }

/-- R240, R241: the hazards of the other parameter values. With CAPTURE_AFTER_INVALID a completion overwrites a result
whose first byte has gone out; without REWIND_ON_READ a read begins with the high byte. -/
def Obligations.HazardsOfOtherParameters : Prop :=
  (∀ (c : Config) (s : System c.n), c.captureAfterInvalid = true → s.cur = .one →
      (doneEffect c s).res = s.conv.val ∧ (doneEffect c s).stg = ⟨true, s.conv.val.extractLsb' 0 8⟩)
    ∧ (∀ (c : Config) (s : System c.n), c.rewindOnRead = false → s.cur = .one →
      (amREffect c s).stg.full = false
        ∧ (txrEffect (amREffect c s)).stg = ⟨true, s.res.extractLsb' 8 8⟩
        ∧ (txrEffect (amREffect c s)).cur = .done)
    ∧ (∀ (c : Config) (s : System c.n), c.rewindOnRead = false → s.cur = .done →
      (txrEffect (amREffect c s)).stg.full = false)

/-- R180, R183: in a fair run that starts in a state of the invariant, an awaited result always arrives. -/
def Obligations.AwaitedResultArrives : Prop :=
  ∀ (moves : Nat → Option Move) (run : Nat → State), IsRun moves run → Fair moves run → (run 0).toSystem.inv = true →
    ∀ k, (run k).cur = .notReady → ∃ j, k < j ∧ (run j).cur ≠ .notReady

/-- R180: the master may stop interacting at any point. Whatever moves have been taken, there is a fair run that goes on from
there with core services and finishing conversions only, and then stays as it is; at once, if nothing is left to do, be it with
a read stretched or with a byte staged that the master never takes. -/
def Obligations.MasterMayStopAtAnyPoint : Prop :=
  ∀ (ms : List Move) (s t : State), takeMoves ms s = .next t →
    ∃ (rest : List Move) (moves : Nat → Option Move) (run : Nat → State),
      IsRun moves run ∧ Fair moves run ∧ run 0 = s ∧ run ms.length = t ∧ (∀ k, moves k = (ms ++ rest)[k]?)
        ∧ (∀ m ∈ rest, m = .service ∨ ∃ v, m = .finish v)
        ∧ (eligible t.toSystem = none → t.conv.st ≠ .busy → rest = [])
end

