-- ==== Sys2Proof/Laws/Encoding.lean ====
section
/-!
SUPPORT. The fields of an event word and what the decoder reads from each encoded event.
-/

namespace Sys2Proof

/-- The bits of an event word: payload, reserved zeros, tag (R80). -/
theorem eventWord_getLsbD (t : BitVec 4) (p : BitVec 16) (i : Nat) :
    (eventWord t p).getLsbD i
      = if i < 16 then p.getLsbD i else if i < 28 then false else t.getLsbD (i - 28) := by
  change BitVec.getLsbD (w := 4 + 12 + 16) (t ++ (0 : BitVec 12) ++ p) i = _
  simp only [BitVec.getLsbD_append]
  by_cases h1 : i < 16
  · simp [h1]
  · by_cases h2 : i < 28
    · simp [h1, h2, show i - 16 < 12 by omega]
    · simp [h1, h2, show ¬ i - 16 < 12 by omega, show i - 16 - 12 = i - 28 by omega]

@[simp] theorem eventWord_tag (t : BitVec 4) (p : BitVec 16) : (eventWord t p).tag = t := by
  apply BitVec.eq_of_getLsbD_eq
  intro i hi
  simp [EventWord.tag, eventWord_getLsbD, hi]
  omega

@[simp] theorem eventWord_rsv (t : BitVec 4) (p : BitVec 16) : (eventWord t p).rsv = 0 := by
  apply BitVec.eq_of_getLsbD_eq
  intro i hi
  simp [EventWord.rsv, eventWord_getLsbD, hi, show 16 + i < 28 by omega]

@[simp] theorem eventWord_payload (t : BitVec 4) (p : BitVec 16) : (eventWord t p).payload = p := by
  apply BitVec.eq_of_getLsbD_eq
  intro i hi
  simp [EventWord.payload, eventWord_getLsbD, hi]

/-- A word with zero reserved bits is its tag and payload. -/
theorem eventWord_eta {w : EventWord} (h : w.rsv = 0) : eventWord w.tag w.payload = w := by
  apply BitVec.eq_of_getLsbD_eq
  intro i hi
  rw [eventWord_getLsbD]
  split
  · simp [EventWord.payload, *]
  · split
    · have hr := congrArg (fun v : BitVec 12 => v.getLsbD (i - 16)) h
      simpa [EventWord.rsv, show i - 16 < 12 by omega, show 16 + (i - 16) = i by omega] using hr.symm
    · simp [EventWord.tag, show i - 28 < 4 by omega, show 28 + (i - 28) = i by omega]

/-- The word as a number. -/
theorem eventWord_toNat (t : BitVec 4) (p : BitVec 16) : (eventWord t p).toNat = t.toNat * 2 ^ 28 + p.toNat := by
  have hp := p.isLt
  change BitVec.toNat (w := 4 + 12 + 16) (t ++ (0 : BitVec 12) ++ p) = _
  rw [BitVec.toNat_append, ← Nat.shiftLeft_add_eq_or_of_lt hp, BitVec.toNat_append]
  simp [Nat.shiftLeft_eq]
  omega

/-! ### Two bytes in one half-word -/

theorem byteAppend_getLsbD (h l : Byte) (i : Nat) :
    ((h ++ l : BitVec 16)).getLsbD i = if i < 8 then l.getLsbD i else h.getLsbD (i - 8) := by
  exact BitVec.getLsbD_append (x := h) (y := l)

@[simp] theorem byteAppend_low (h l : Byte) : (h ++ l : BitVec 16).extractLsb' 0 8 = l := by
  apply BitVec.eq_of_getLsbD_eq
  intro i hi
  simp [byteAppend_getLsbD, hi]

@[simp] theorem byteAppend_high (h l : Byte) : (h ++ l : BitVec 16).extractLsb' 8 8 = h := by
  apply BitVec.eq_of_getLsbD_eq
  intro i hi
  simp [byteAppend_getLsbD, hi]

theorem byteAppend_eta (v : BitVec 16) : (v.extractLsb' 8 8 ++ v.extractLsb' 0 8 : BitVec 16) = v := by
  apply BitVec.eq_of_getLsbD_eq
  intro i hi
  rw [byteAppend_getLsbD]
  split
  · simp [*]
  · simp [show i - 8 < 8 by omega, show 8 + (i - 8) = i by omega]

/-! ### Address bytes (R87) -/

theorem addressByte_getLsbD (a : BusAddr) (d : Dir) (i : Nat) :
    (addressByte a d).getLsbD i = if i < 1 then (bitOfDir d).getLsbD i else a.getLsbD (i - 1) :=
  BitVec.getLsbD_append (x := a) (y := bitOfDir d)

@[simp] theorem dirOfBit_bitOfDir (d : Dir) : dirOfBit (bitOfDir d) = d := by cases d <;> decide
@[simp] theorem bitOfDir_dirOfBit (b : BitVec 1) : bitOfDir (dirOfBit b) = b := by revert b; decide
@[simp] theorem ackOfBit_bitOfAck (a : Ack) : ackOfBit (bitOfAck a) = a := by cases a <;> decide
@[simp] theorem bitOfAck_ackOfBit (b : BitVec 1) : bitOfAck (ackOfBit b) = b := by revert b; decide

@[simp] theorem addressOf_addressByte (a : BusAddr) (d : Dir) : addressOf (addressByte a d) = a := by
  apply BitVec.eq_of_getLsbD_eq
  intro i hi
  simp [addressOf, addressByte_getLsbD, hi]

@[simp] theorem directionOf_addressByte (a : BusAddr) (d : Dir) : directionOf (addressByte a d) = d := by
  have : (addressByte a d).extractLsb' 0 1 = bitOfDir d := by
    apply BitVec.eq_of_getLsbD_eq
    intro i hi
    simp [addressByte_getLsbD, hi]
  rw [directionOf, this, dirOfBit_bitOfDir]

@[simp] theorem addressByte_eta (b : Byte) : addressByte (addressOf b) (directionOf b) = b := by
  apply BitVec.eq_of_getLsbD_eq
  intro i hi
  rw [addressByte_getLsbD, directionOf, bitOfDir_dirOfBit]
  split
  · simp [*]
  · simp [addressOf, show i - 1 < 7 by omega, show 1 + (i - 1) = i by omega]

/-- The decoder on the address byte of any address (R88). -/
theorem decodeAddressByte_addressByte (a : BusAddr) (d : Dir) :
    decodeAddressByte (addressByte a d)
      = if a = Config.esplant.ownAddr then (match d with | .w => some .busAddrW | .r => some .busAddrR) else none := by
  cases d <;> simp only [decodeAddressByte, addressOf_addressByte, directionOf_addressByte]

/-! ### What the decoder reads (R81, R82) -/

@[simp] theorem decodeEvent_amWord_w : decodeEvent (amWord .w) = some .amW := by decide
@[simp] theorem decodeEvent_amWord_r : decodeEvent (amWord .r) = some .amR := by decide
@[simp] theorem decodeEvent_txrWord : decodeEvent txrWord = some .txr := by decide
@[simp] theorem decodeEvent_stopWord : decodeEvent stopWord = some .stop := by decide
@[simp] theorem decodeEvent_nackWord : decodeEvent nackWord = some .nack := by decide
@[simp] theorem decodeEvent_ovrWord : decodeEvent ovrWord = some .ovr := by decide
@[simp] theorem decodeEvent_failWord : decodeEvent failWord = some .fail := by decide
@[simp] theorem decodeEvent_rearmWord : decodeEvent rearmWord = some .rearm := by decide
@[simp] theorem decodeEvent_resetWord : decodeEvent resetWord = some .reset := by decide

@[simp] theorem decodeEvent_rxWord (b : Byte) : decodeEvent (rxWord b) = some (.rx b) := by
  simp [decodeEvent, rxWord]

@[simp] theorem decodeEvent_doneWord (v : Half) : decodeEvent (doneWord v) = some (.done v) := by
  simp [decodeEvent, doneWord]

/-- NONE is no event (R81). -/
@[simp] theorem decodeEvent_pendNone : decodeEvent Machine.pendNone = none := by decide

/-! ### The words as the spec writes them (R82) -/

theorem amWord_w_eq : amWord .w = 0x10000000 := by decide
theorem amWord_r_eq : amWord .r = 0x10000001 := by decide
theorem stopWord_eq : stopWord = 0x40000000 := by decide
theorem nackWord_eq : nackWord = 0x50000000 := by decide
theorem ovrWord_eq : ovrWord = 0x60000000 := by decide
theorem resetWord_eq : resetWord = 0xA0000000 := by decide

theorem rxWord_eq (b : Byte) : rxWord b = 0x200000#24 ++ b := by
  have hb := b.isLt
  apply BitVec.eq_of_toNat_eq
  rw [rxWord, eventWord_toNat]
  have e1 : ((0 : BitVec 8) ++ b : BitVec 16).toNat = b.toNat :=
    (BitVec.toNat_append (0 : BitVec 8) b).trans (by simp)
  have e2 : (0x200000#24 ++ b : BitVec 32).toNat = 0x200000 <<< 8 ||| b.toNat := BitVec.toNat_append 0x200000#24 b
  rw [e1, e2, ← Nat.shiftLeft_add_eq_or_of_lt hb]
  simp

theorem doneWord_eq (v : Half) : doneWord v = 0x7000#16 ++ v := by
  have hv := v.isLt
  apply BitVec.eq_of_toNat_eq
  have e : (0x7000#16 ++ v : BitVec 32).toNat = 0x7000 <<< 16 ||| v.toNat := BitVec.toNat_append 0x7000#16 v
  rw [doneWord, eventWord_toNat, e, ← Nat.shiftLeft_add_eq_or_of_lt hv]
  simp

/-! ### The decoder reads no more than the encoding (R84, R85) -/

theorem eq_eventWord {w : EventWord} {t : BitVec 4} (hr : w.rsv = 0) (ht : w.tag.toNat = t.toNat) :
    w = eventWord t w.payload := by
  rw [← BitVec.eq_of_toNat_eq ht, eventWord_eta hr]

/-- An event without payload is read only from a zero PAYLOAD (R82). -/
theorem bareEvent_some {w : EventWord} {i j : Instr} (h : bareEvent w i = some j) : w.payload = 0 ∧ i = j := by
  unfold bareEvent at h
  split at h <;> simp_all

/-- A decoded word is the encoding of what was decoded: no bit of it is dropped. -/
theorem encode_of_decodeEvent {w : EventWord} {i : Instr} (h : decodeEvent w = some i) : encode i = .event32 w := by
  unfold decodeEvent at h
  split at h
  case isFalse => cases h
  case isTrue hr =>
  split at h
  case h_1 ht =>
    have e := eq_eventWord (t := 0x1) hr ht
    split at h
    case isTrue hp => cases h; rw [e, hp]; rfl
    case isFalse =>
      split at h
      case isTrue hp => cases h; rw [e, hp]; rfl
      case isFalse => cases h
  case h_2 ht =>
    have e := eq_eventWord (t := 0x2) hr ht
    split at h
    case isTrue hp =>
      cases h
      have hv := byteAppend_eta w.payload
      rw [hp] at hv
      rw [e, encode, rxWord, eventWord_payload, hv]
    case isFalse => cases h
  case h_7 ht =>
    cases h
    rw [encode, doneWord, ← eq_eventWord (t := 0x7) hr ht]
  case h_11 => cases h
  case h_3 ht => obtain ⟨hp, rfl⟩ := bareEvent_some h; rw [eq_eventWord (t := 0x3) hr ht, hp]; rfl
  case h_4 ht => obtain ⟨hp, rfl⟩ := bareEvent_some h; rw [eq_eventWord (t := 0x4) hr ht, hp]; rfl
  case h_5 ht => obtain ⟨hp, rfl⟩ := bareEvent_some h; rw [eq_eventWord (t := 0x5) hr ht, hp]; rfl
  case h_6 ht => obtain ⟨hp, rfl⟩ := bareEvent_some h; rw [eq_eventWord (t := 0x6) hr ht, hp]; rfl
  case h_8 ht => obtain ⟨hp, rfl⟩ := bareEvent_some h; rw [eq_eventWord (t := 0x8) hr ht, hp]; rfl
  case h_9 ht => obtain ⟨hp, rfl⟩ := bareEvent_some h; rw [eq_eventWord (t := 0x9) hr ht, hp]; rfl
  case h_10 ht => obtain ⟨hp, rfl⟩ := bareEvent_some h; rw [eq_eventWord (t := 0xA) hr ht, hp]; rfl

end Sys2Proof
end

