-- ==== Sys2Proof/Laws/State.lean ====
section
/-!
SUPPORT. Beside State: for each named update of the system, what every field holds after it (all by rfl), and the fields of
the reset state.
-/

namespace Sys2Proof.Machine

variable {n : Nat} (s : System n)

/-! ### clearCondition -/

@[simp] theorem clearCondition_sel : (clearCondition s).sel = s.sel := rfl
@[simp] theorem clearCondition_res : (clearCondition s).res = s.res := rfl
@[simp] theorem clearCondition_cur : (clearCondition s).cur = s.cur := rfl
@[simp] theorem clearCondition_stg : (clearCondition s).stg = s.stg := rfl
@[simp] theorem clearCondition_phase : (clearCondition s).phase = s.phase := rfl
@[simp] theorem clearCondition_acken : (clearCondition s).acken = s.acken := rfl
@[simp] theorem clearCondition_txreq : (clearCondition s).txreq = s.txreq := rfl
@[simp] theorem clearCondition_pend : (clearCondition s).pend = pendNone := rfl
@[simp] theorem clearCondition_chen : (clearCondition s).chen = s.chen := rfl
@[simp] theorem clearCondition_conv : (clearCondition s).conv = s.conv := rfl
@[simp] theorem clearCondition_addressed : (clearCondition s).addressed = s.addressed := rfl
@[simp] theorem clearCondition_mnack : (clearCondition s).mnack = s.mnack := rfl
@[simp] theorem clearCondition_mobs : (clearCondition s).mobs = s.mobs := rfl

/-! ### raiseCondition -/

@[simp] theorem raiseCondition_sel (w : EventWord) : (raiseCondition w s).sel = s.sel := rfl
@[simp] theorem raiseCondition_res (w : EventWord) : (raiseCondition w s).res = s.res := rfl
@[simp] theorem raiseCondition_cur (w : EventWord) : (raiseCondition w s).cur = s.cur := rfl
@[simp] theorem raiseCondition_stg (w : EventWord) : (raiseCondition w s).stg = s.stg := rfl
@[simp] theorem raiseCondition_phase (w : EventWord) : (raiseCondition w s).phase = s.phase := rfl
@[simp] theorem raiseCondition_acken (w : EventWord) : (raiseCondition w s).acken = s.acken := rfl
@[simp] theorem raiseCondition_txreq (w : EventWord) : (raiseCondition w s).txreq = s.txreq := rfl
@[simp] theorem raiseCondition_pend (w : EventWord) : (raiseCondition w s).pend = w := rfl
@[simp] theorem raiseCondition_chen (w : EventWord) : (raiseCondition w s).chen = s.chen := rfl
@[simp] theorem raiseCondition_conv (w : EventWord) : (raiseCondition w s).conv = s.conv := rfl
@[simp] theorem raiseCondition_addressed (w : EventWord) : (raiseCondition w s).addressed = s.addressed := rfl
@[simp] theorem raiseCondition_mnack (w : EventWord) : (raiseCondition w s).mnack = s.mnack := rfl
@[simp] theorem raiseCondition_mobs (w : EventWord) : (raiseCondition w s).mobs = s.mobs := rfl

/-! ### flush -/

@[simp] theorem flush_sel : (flush s).sel = s.sel := rfl
@[simp] theorem flush_res : (flush s).res = s.res := rfl
@[simp] theorem flush_cur : (flush s).cur = s.cur := rfl
@[simp] theorem flush_stg : (flush s).stg = { s.stg with full := false } := rfl
@[simp] theorem flush_phase : (flush s).phase = s.phase := rfl
@[simp] theorem flush_acken : (flush s).acken = s.acken := rfl
@[simp] theorem flush_txreq : (flush s).txreq = s.txreq := rfl
@[simp] theorem flush_pend : (flush s).pend = s.pend := rfl
@[simp] theorem flush_chen : (flush s).chen = s.chen := rfl
@[simp] theorem flush_conv : (flush s).conv = s.conv := rfl
@[simp] theorem flush_addressed : (flush s).addressed = s.addressed := rfl
@[simp] theorem flush_mnack : (flush s).mnack = s.mnack := rfl
@[simp] theorem flush_mobs : (flush s).mobs = s.mobs := rfl

/-! ### pushByte -/

@[simp] theorem pushByte_sel (b : Byte) : (pushByte b s).sel = s.sel := rfl
@[simp] theorem pushByte_res (b : Byte) : (pushByte b s).res = s.res := rfl
@[simp] theorem pushByte_cur (b : Byte) : (pushByte b s).cur = s.cur := rfl
@[simp] theorem pushByte_stg (b : Byte) : (pushByte b s).stg = ⟨true, b⟩ := rfl
@[simp] theorem pushByte_phase (b : Byte) : (pushByte b s).phase = s.phase := rfl
@[simp] theorem pushByte_acken (b : Byte) : (pushByte b s).acken = s.acken := rfl
@[simp] theorem pushByte_txreq (b : Byte) : (pushByte b s).txreq = s.txreq := rfl
@[simp] theorem pushByte_pend (b : Byte) : (pushByte b s).pend = s.pend := rfl
@[simp] theorem pushByte_chen (b : Byte) : (pushByte b s).chen = s.chen := rfl
@[simp] theorem pushByte_conv (b : Byte) : (pushByte b s).conv = s.conv := rfl
@[simp] theorem pushByte_addressed (b : Byte) : (pushByte b s).addressed = s.addressed := rfl
@[simp] theorem pushByte_mnack (b : Byte) : (pushByte b s).mnack = s.mnack := rfl
@[simp] theorem pushByte_mobs (b : Byte) : (pushByte b s).mobs = s.mobs := rfl

/-! ### fanOut -/

@[simp] theorem fanOut_sel (i : Byte) : (fanOut i s).sel = s.sel := rfl
@[simp] theorem fanOut_res (i : Byte) : (fanOut i s).res = s.res := rfl
@[simp] theorem fanOut_cur (i : Byte) : (fanOut i s).cur = s.cur := rfl
@[simp] theorem fanOut_stg (i : Byte) : (fanOut i s).stg = s.stg := rfl
@[simp] theorem fanOut_phase (i : Byte) : (fanOut i s).phase = s.phase := rfl
@[simp] theorem fanOut_acken (i : Byte) : (fanOut i s).acken = s.acken := rfl
@[simp] theorem fanOut_txreq (i : Byte) : (fanOut i s).txreq = s.txreq := rfl
@[simp] theorem fanOut_pend (i : Byte) : (fanOut i s).pend = s.pend := rfl
@[simp] theorem fanOut_chen (i : Byte) : (fanOut i s).chen = onehot n i.toNat := rfl
@[simp] theorem fanOut_conv (i : Byte) : (fanOut i s).conv = s.conv := rfl
@[simp] theorem fanOut_addressed (i : Byte) : (fanOut i s).addressed = s.addressed := rfl
@[simp] theorem fanOut_mnack (i : Byte) : (fanOut i s).mnack = s.mnack := rfl
@[simp] theorem fanOut_mobs (i : Byte) : (fanOut i s).mobs = s.mobs := rfl

/-! ### arm -/

@[simp] theorem arm_sel (i : Byte) : (arm i s).sel = s.sel := rfl
@[simp] theorem arm_res (i : Byte) : (arm i s).res = s.res := rfl
@[simp] theorem arm_cur (i : Byte) : (arm i s).cur = s.cur := rfl
@[simp] theorem arm_stg (i : Byte) : (arm i s).stg = s.stg := rfl
@[simp] theorem arm_phase (i : Byte) : (arm i s).phase = s.phase := rfl
@[simp] theorem arm_acken (i : Byte) : (arm i s).acken = s.acken := rfl
@[simp] theorem arm_txreq (i : Byte) : (arm i s).txreq = s.txreq := rfl
@[simp] theorem arm_pend (i : Byte) : (arm i s).pend = s.pend := rfl
@[simp] theorem arm_chen (i : Byte) : (arm i s).chen = s.chen := rfl
@[simp] theorem arm_conv (i : Byte) : (arm i s).conv = { s.conv with st := .busy, ch := i } := rfl
@[simp] theorem arm_addressed (i : Byte) : (arm i s).addressed = s.addressed := rfl
@[simp] theorem arm_mnack (i : Byte) : (arm i s).mnack = s.mnack := rfl
@[simp] theorem arm_mobs (i : Byte) : (arm i s).mobs = s.mobs := rfl

/-! ### setConvStatus -/

@[simp] theorem setConvStatus_sel (x : ConvStatus) : (setConvStatus x s).sel = s.sel := rfl
@[simp] theorem setConvStatus_res (x : ConvStatus) : (setConvStatus x s).res = s.res := rfl
@[simp] theorem setConvStatus_cur (x : ConvStatus) : (setConvStatus x s).cur = s.cur := rfl
@[simp] theorem setConvStatus_stg (x : ConvStatus) : (setConvStatus x s).stg = s.stg := rfl
@[simp] theorem setConvStatus_phase (x : ConvStatus) : (setConvStatus x s).phase = s.phase := rfl
@[simp] theorem setConvStatus_acken (x : ConvStatus) : (setConvStatus x s).acken = s.acken := rfl
@[simp] theorem setConvStatus_txreq (x : ConvStatus) : (setConvStatus x s).txreq = s.txreq := rfl
@[simp] theorem setConvStatus_pend (x : ConvStatus) : (setConvStatus x s).pend = s.pend := rfl
@[simp] theorem setConvStatus_chen (x : ConvStatus) : (setConvStatus x s).chen = s.chen := rfl
@[simp] theorem setConvStatus_conv (x : ConvStatus) : (setConvStatus x s).conv = { s.conv with st := x } := rfl
@[simp] theorem setConvStatus_addressed (x : ConvStatus) : (setConvStatus x s).addressed = s.addressed := rfl
@[simp] theorem setConvStatus_mnack (x : ConvStatus) : (setConvStatus x s).mnack = s.mnack := rfl
@[simp] theorem setConvStatus_mobs (x : ConvStatus) : (setConvStatus x s).mobs = s.mobs := rfl

/-! ### observe -/

@[simp] theorem observe_sel (o : Obs) : (observe o s).sel = s.sel := rfl
@[simp] theorem observe_res (o : Obs) : (observe o s).res = s.res := rfl
@[simp] theorem observe_cur (o : Obs) : (observe o s).cur = s.cur := rfl
@[simp] theorem observe_stg (o : Obs) : (observe o s).stg = s.stg := rfl
@[simp] theorem observe_phase (o : Obs) : (observe o s).phase = s.phase := rfl
@[simp] theorem observe_acken (o : Obs) : (observe o s).acken = s.acken := rfl
@[simp] theorem observe_txreq (o : Obs) : (observe o s).txreq = s.txreq := rfl
@[simp] theorem observe_pend (o : Obs) : (observe o s).pend = s.pend := rfl
@[simp] theorem observe_chen (o : Obs) : (observe o s).chen = s.chen := rfl
@[simp] theorem observe_conv (o : Obs) : (observe o s).conv = s.conv := rfl
@[simp] theorem observe_addressed (o : Obs) : (observe o s).addressed = s.addressed := rfl
@[simp] theorem observe_mnack (o : Obs) : (observe o s).mnack = s.mnack := rfl
@[simp] theorem observe_mobs (o : Obs) : (observe o s).mobs = s.mobs ++ [o] := rfl

/-! ### The reset state (R37) -/

@[simp] theorem reset_sel : (System.reset n).sel = 0xFF := rfl
@[simp] theorem reset_res : (System.reset n).res = Config.sentinel := rfl
@[simp] theorem reset_cur : (System.reset n).cur = .zero := rfl
@[simp] theorem reset_stg : (System.reset n).stg = ⟨false, 0x00⟩ := rfl
@[simp] theorem reset_phase : (System.reset n).phase = .idle := rfl
@[simp] theorem reset_acken : (System.reset n).acken = true := rfl
@[simp] theorem reset_txreq : (System.reset n).txreq = false := rfl
@[simp] theorem reset_pend : (System.reset n).pend = pendNone := rfl
@[simp] theorem reset_chen : (System.reset n).chen = 0 := rfl
@[simp] theorem reset_conv : (System.reset n).conv = ⟨.idle, 0x00, 0x0000⟩ := rfl
@[simp] theorem reset_addressed : (System.reset n).addressed = false := rfl
@[simp] theorem reset_mnack : (System.reset n).mnack = false := rfl
@[simp] theorem reset_mobs : (System.reset n).mobs = [] := rfl

@[simp] theorem state_reset_toSystem : State.reset.toSystem = System.reset Config.esplant.n := rfl
@[simp] theorem state_reset_agenda : State.reset.agenda = [] := rfl
@[simp] theorem state_reset_draws : State.reset.draws = 0 := rfl

end Sys2Proof.Machine
end

