-- ==== Sys2Proof/Laws/Ops.lean ====
section
/-!
SUPPORT. What each shared operation can do, said once: which services and environment steps are accepted, what a push and
the end of a conversion leave, and what one move and one step of the system can be.
-/

namespace Sys2Proof.Machine

variable {n : Nat}

/-! ### Held conditions -/

@[simp] theorem heldEvent_pendNone : heldEvent pendNone = none := by decide
@[simp] theorem heldEvent_amWord_w : heldEvent (amWord .w) = some .amW := by decide
@[simp] theorem heldEvent_amWord_r : heldEvent (amWord .r) = some .amR := by decide
@[simp] theorem heldEvent_stopWord : heldEvent stopWord = some .stop := by decide
@[simp] theorem heldEvent_nackWord : heldEvent nackWord = some .nack := by decide
@[simp] theorem heldEvent_ovrWord : heldEvent ovrWord = some .ovr := by decide

@[simp] theorem heldEvent_rxWord (b : Byte) : heldEvent (rxWord b) = some (.rx b) := by
  simp [heldEvent, heldInPend]

/-- What PEND stands for is one of the six held events, and the word is that event's own. -/
theorem heldEvent_cases {w : EventWord} {i : Instr} (h : heldEvent w = some i) :
    (i = .amW ∧ w = amWord .w) ∨ (i = .amR ∧ w = amWord .r) ∨ (∃ b, i = .rx b ∧ w = rxWord b)
      ∨ (i = .stop ∧ w = stopWord) ∨ (i = .nack ∧ w = nackWord) ∨ (i = .ovr ∧ w = ovrWord) := by
  obtain ⟨h1, h2⟩ := Option.filter_eq_some_iff.mp h
  have h3 := encode_of_decodeEvent h1
  cases i <;> simp_all [heldInPend, encode]

/-! ### Acceptance -/

theorem serve_next {i : Instr} {f : System n → System n} {s t : System n} :
    serve i f s = .next t ↔ eligible s = some i ∧ t = f s := by
  unfold serve
  split <;> simp_all [eq_comm]

theorem serve_of_eligible {i : Instr} {s : System n} (f : System n → System n) (h : eligible s = some i) :
    serve i f s = .next (f s) := if_pos h

theorem serve_of_not_eligible {i : Instr} {s : System n} (f : System n → System n) (h : eligible s ≠ some i) :
    serve i f s = .fault .notEligible := if_neg h

theorem act_next {e : Bool} {f : System n → System n} {s t : System n} :
    act e f s = .next t ↔ e = true ∧ t = f s := by
  unfold act
  split <;> simp_all [eq_comm]

theorem onSystem_next {f : System Config.esplant.n → Host.Outcome (System Config.esplant.n) Fault Refusal} {s t : State} :
    onSystem f s = .next t ↔ ∃ u, f s.toSystem = .next u ∧ t = { s with toSystem := u } := by
  unfold onSystem
  split <;> simp_all [eq_comm]

/-- An eligible service has its effect, on the state of this hardware. -/
theorem onSystem_serve {i : Instr} {s : State} (f : System Config.esplant.n → System Config.esplant.n)
    (h : eligible s.toSystem = some i) : onSystem (serve i f) s = .next { s with toSystem := f s.toSystem } := by
  rw [onSystem, serve_of_eligible f h]

/-- A service that is not eligible is stuck (R86). -/
theorem onSystem_serve_stuck {i : Instr} {s : State} (f : System Config.esplant.n → System Config.esplant.n)
    (h : eligible s.toSystem ≠ some i) : onSystem (serve i f) s = .fault .notEligible := by
  rw [onSystem, serve_of_not_eligible f h]

/-- An enabled environment step has its effect, on the state of this hardware. -/
theorem onSystem_act {s : State} (e : System Config.esplant.n → Bool) (f : System Config.esplant.n → System Config.esplant.n)
    (h : e s.toSystem = true) : onSystem (fun u => act (e u) f u) s = .next { s with toSystem := f s.toSystem } := by
  rw [onSystem, act, if_pos h]

/-- An environment step that is not enabled does not happen. -/
theorem onSystem_act_stuck {s : State} (e : System Config.esplant.n → Bool)
    (f : System Config.esplant.n → System Config.esplant.n) (h : e s.toSystem ≠ true) :
    onSystem (fun u => act (e u) f u) s = .fault .notEligible := by
  rw [onSystem, act, if_neg h]

/-! ### Phases, selectors and enabled steps in the spec's words -/

theorem isWrite_iff (p : Phase) : p.isWrite = true ↔ p = .addrW ∨ p = .receiving := by
  cases p <;> simp [Phase.isWrite]

theorem isRead_iff (p : Phase) : p.isRead = true ↔ p = .addrR ∨ p = .transmitting := by
  cases p <;> simp [Phase.isRead]

theorem validSelector_iff (n : Nat) (b : Byte) : validSelector n b = true ↔ b.toNat < n := by
  have := b.isLt
  simp [validSelector]
  omega

theorem busFree_iff {s : System n} : busFree s = true ↔ s.pend = 0 := by
  simp [busFree, pendNone]

theorem writeEnabled_iff {s : System n} :
    writeEnabled s = true ↔ s.pend = 0 ∧ s.addressed = true ∧ (s.phase = .addrW ∨ s.phase = .receiving) := by
  simp [writeEnabled, busFree_iff, isWrite_iff, and_assoc]

theorem readEnabled_iff {s : System n} :
    readEnabled s = true
      ↔ s.pend = 0 ∧ s.addressed = true ∧ (s.phase = .addrR ∨ s.phase = .transmitting) ∧ s.stg.full = true
        ∧ s.mnack = false := by
  simp [readEnabled, busFree_iff, isRead_iff, and_assoc]

theorem readyToTransmit_iff {s : System n} :
    readyToTransmit s = true
      ↔ s.pend = 0 ∧ (s.phase = .addrR ∨ s.phase = .transmitting) ∧ s.stg.full = false ∧ s.txreq = true := by
  simp [readyToTransmit, pendNone, isRead_iff, and_assoc]

/-! ### When each service is eligible (R101-R108, R145, R146, R208) -/

/-- Neither EOC nor ERR: the condition that every bus-side service shares (R100). -/
theorem conversionPending_eq_false {s : System n} :
    conversionPending s = false ↔ s.conv.st ≠ .eoc ∧ s.conv.st ≠ .err := by
  simp [conversionPending]

/-- With no conversion ended, a held condition is what is eligible. -/
theorem eligible_of_held {s : System n} {i : Instr} (hc : conversionPending s = false) (h : heldEvent s.pend = some i) :
    eligible s = some i := by
  rw [conversionPending_eq_false] at hc
  unfold eligible
  split <;> simp_all

theorem eligible_eoc {s : System n} (h : s.conv.st = .eoc) : eligible s = some (.done s.conv.val) := by
  simp [eligible, h]

theorem eligible_err {s : System n} (h : s.conv.st = .err) : eligible s = some .fail := by
  simp [eligible, h]

/-- With no conversion ended and nothing held, what is left is `txr`, then `rearm`. -/
theorem eligible_of_not_held {s : System n} (hc : conversionPending s = false) (h : heldEvent s.pend = none) :
    eligible s = if readyToTransmit s then some .txr
      else if s.pend == pendNone && s.phase == .stopped then some .rearm else none := by
  rw [conversionPending_eq_false] at hc
  unfold eligible
  split <;> simp_all

/-- Every way in which a service can be eligible (R208). -/
theorem eligible_cases {s : System n} {i : Instr} (h : eligible s = some i) :
    (s.conv.st = .eoc ∧ i = .done s.conv.val) ∨ (s.conv.st = .err ∧ i = .fail)
      ∨ (conversionPending s = false ∧ heldEvent s.pend = some i)
      ∨ (conversionPending s = false ∧ readyToTransmit s = true ∧ i = .txr)
      ∨ (conversionPending s = false ∧ s.pend = pendNone ∧ s.phase = .stopped ∧ i = .rearm) := by
  by_cases h1 : s.conv.st = .eoc
  · rw [eligible_eoc h1] at h
    exact .inl ⟨h1, (Option.some.inj h).symm⟩
  by_cases h2 : s.conv.st = .err
  · rw [eligible_err h2] at h
    exact .inr (.inl ⟨h2, (Option.some.inj h).symm⟩)
  have hc : conversionPending s = false := conversionPending_eq_false.mpr ⟨h1, h2⟩
  rcases hh : heldEvent s.pend with _ | j
  · rw [eligible_of_not_held hc hh] at h
    split at h
    · exact .inr (.inr (.inr (.inl ⟨hc, ‹_›, (Option.some.inj h).symm⟩)))
    · split at h
      · simp_all
      · cases h
  · rw [eligible_of_held hc hh] at h
    exact .inr (.inr (.inl ⟨hc, h ▸ rfl⟩))

theorem eligible_amW {s : System n} : eligible s = some .amW ↔ conversionPending s = false ∧ s.pend = amWord .w := by
  constructor
  · intro h
    rcases eligible_cases h with h | h | h | h | h <;> simp_all
    rcases heldEvent_cases h.2 with h | h | h | h | h | h <;> simp_all
  · rintro ⟨hc, hp⟩
    exact eligible_of_held hc (by simp [hp])

theorem eligible_amR {s : System n} : eligible s = some .amR ↔ conversionPending s = false ∧ s.pend = amWord .r := by
  constructor
  · intro h
    rcases eligible_cases h with h | h | h | h | h <;> simp_all
    rcases heldEvent_cases h.2 with h | h | h | h | h | h <;> simp_all
  · rintro ⟨hc, hp⟩
    exact eligible_of_held hc (by simp [hp])

theorem eligible_rx {s : System n} {b : Byte} :
    eligible s = some (.rx b) ↔ conversionPending s = false ∧ s.pend = rxWord b := by
  constructor
  · intro h
    rcases eligible_cases h with h | h | h | h | h <;> simp_all
    rcases heldEvent_cases h.2 with h | h | h | h | h | h <;> simp_all
  · rintro ⟨hc, hp⟩
    exact eligible_of_held hc (by simp [hp])

theorem eligible_stop {s : System n} : eligible s = some .stop ↔ conversionPending s = false ∧ s.pend = stopWord := by
  constructor
  · intro h
    rcases eligible_cases h with h | h | h | h | h <;> simp_all
    rcases heldEvent_cases h.2 with h | h | h | h | h | h <;> simp_all
  · rintro ⟨hc, hp⟩
    exact eligible_of_held hc (by simp [hp])

theorem eligible_nack {s : System n} : eligible s = some .nack ↔ conversionPending s = false ∧ s.pend = nackWord := by
  constructor
  · intro h
    rcases eligible_cases h with h | h | h | h | h <;> simp_all
    rcases heldEvent_cases h.2 with h | h | h | h | h | h <;> simp_all
  · rintro ⟨hc, hp⟩
    exact eligible_of_held hc (by simp [hp])

theorem eligible_ovr {s : System n} : eligible s = some .ovr ↔ conversionPending s = false ∧ s.pend = ovrWord := by
  constructor
  · intro h
    rcases eligible_cases h with h | h | h | h | h <;> simp_all
    rcases heldEvent_cases h.2 with h | h | h | h | h | h <;> simp_all
  · rintro ⟨hc, hp⟩
    exact eligible_of_held hc (by simp [hp])

/-- What a held event is not: the services that PEND never holds (R81). -/
theorem heldEvent_ne {w : EventWord} {i : Instr} (h : heldInPend i = false) : heldEvent w ≠ some i := by
  intro e
  have := (Option.filter_eq_some_iff.mp e).2
  simp_all

theorem eligible_txr {s : System n} :
    eligible s = some .txr ↔ conversionPending s = false ∧ readyToTransmit s = true := by
  constructor
  · intro h
    rcases eligible_cases h with h | h | h | h | h
    case inr.inr.inl => exact absurd h.2 (heldEvent_ne rfl)
    all_goals simp_all
  · rintro ⟨hc, hr⟩
    have hp : s.pend = pendNone := by simp [readyToTransmit] at hr; exact hr.1.1.1
    rw [eligible_of_not_held hc (by simp [hp]), if_pos hr]

theorem eligible_rearm {s : System n} :
    eligible s = some .rearm ↔ conversionPending s = false ∧ s.pend = pendNone ∧ s.phase = .stopped := by
  constructor
  · intro h
    rcases eligible_cases h with h | h | h | h | h
    case inr.inr.inl => exact absurd h.2 (heldEvent_ne rfl)
    all_goals simp_all
  · rintro ⟨hc, hp, hs⟩
    rw [eligible_of_not_held hc (by simp [hp]), if_neg (by simp [readyToTransmit, hs, Phase.isRead]),
      if_pos (by simp [hp, hs])]

theorem eligible_done {s : System n} {v : Half} :
    eligible s = some (.done v) ↔ s.conv.st = .eoc ∧ s.conv.val = v := by
  constructor
  · intro h
    rcases eligible_cases h with h | h | h | h | h
    case inr.inr.inl => exact absurd h.2 (heldEvent_ne rfl)
    all_goals simp_all
  · rintro ⟨h, rfl⟩
    exact eligible_eoc h

theorem eligible_fail {s : System n} : eligible s = some .fail ↔ s.conv.st = .err := by
  constructor
  · intro h
    rcases eligible_cases h with h | h | h | h | h
    case inr.inr.inl => exact absurd h.2 (heldEvent_ne rfl)
    all_goals simp_all
  · exact eligible_err

/-! ### Pushing and capturing -/

theorem sendNext_zero {s : System n} (h : s.cur = .zero) :
    sendNext s = { s with stg := ⟨true, loByte s.res⟩, cur := .one } := by
  simp [sendNext, h, Cursor.byteOf, Cursor.next, pushByte]

theorem sendNext_one {s : System n} (h : s.cur = .one) :
    sendNext s = { s with stg := ⟨true, hiByte s.res⟩, cur := .done } := by
  simp [sendNext, h, Cursor.byteOf, Cursor.next, pushByte]

theorem sendNext_done {s : System n} (h : s.cur = .done) : sendNext s = s := by
  simp [sendNext, h, Cursor.byteOf]

theorem sendNext_notReady {s : System n} (h : s.cur = .notReady) : sendNext s = s := by
  simp [sendNext, h, Cursor.byteOf]

theorem capture_eq (v : Half) (s : System n) :
    capture v s = { s with res := v, stg := ⟨true, loByte v⟩, cur := .one } := by
  simp [capture, sendNext_zero]

/-- The gate open (R144): the value is captured. -/
theorem endConversion_open {c : Config} {s : System n} (v : Half) (h : captureOk c s = true) :
    endConversion c v s
      = { s with res := v, stg := ⟨true, loByte v⟩, cur := .one, conv := { s.conv with st := .idle } } := by
  have h' : captureOk c (setConvStatus .idle s) = true := h
  rw [endConversion, if_pos h', capture_eq]
  rfl

/-- The gate closed (R144): only CONV.ST changes. -/
theorem endConversion_closed {c : Config} {s : System n} (v : Half) (h : captureOk c s = false) :
    endConversion c v s = { s with conv := { s.conv with st := .idle } } := by
  have h' : captureOk c (setConvStatus .idle s) ≠ true := by simp_all [captureOk]
  rw [endConversion, if_neg h']
  rfl

end Sys2Proof.Machine
end

