-- ==== Sys2Proof/Laws/PerInstr.lean ====
section
/-!
SUPPORT. Per-instruction statements: the code of every instruction is one the spec defines (30_encoding.md R84, R88): no
event's word lies in the INVALID space, and the address frames carry OWN_ADDR.
-/

namespace Sys2Proof.Laws.CodeWellFormed

def Statement (i : Instr) : Prop := (encode i).wellFormed = true

theorem amW : Statement .amW := by unfold Statement; decide
theorem amR : Statement .amR := by unfold Statement; decide

theorem rx (b : Byte) : Statement (.rx b) := by
  have hb := b.isLt
  have e : (rxWord b).toNat = 2 * 2 ^ 28 + b.toNat := by
    rw [rxWord, eventWord_toNat]
    have : ((0 : BitVec 8) ++ b : BitVec 16).toNat = b.toNat :=
       (BitVec.toNat_append (0 : BitVec 8) b).trans (by simp)
    rw [this]
    rfl
  have h1 : (rxWord b).tagNat = 2 := by rw [EventWord.tagNat, e]; omega
  have h2 : (rxWord b).rsvNat = 0 := by rw [EventWord.rsvNat, e]; omega
  have h3 : (rxWord b).payloadNat / 2 ^ 8 = 0 := by rw [EventWord.payloadNat, e]; omega
  rw [Statement, encode, Code.wellFormed, EventWord.invalid, h1, h2, h3]
  simp

theorem txr : Statement .txr := by unfold Statement; decide
theorem stop : Statement .stop := by unfold Statement; decide
theorem nack : Statement .nack := by unfold Statement; decide
theorem ovr : Statement .ovr := by unfold Statement; decide

theorem done (v : Half) : Statement (.done v) := by
  have hv := v.isLt
  have e : (doneWord v).toNat = 7 * 2 ^ 28 + v.toNat := by
    rw [doneWord, eventWord_toNat]
    rfl
  have h1 : (doneWord v).tagNat = 7 := by rw [EventWord.tagNat, e]; omega
  have h2 : (doneWord v).rsvNat = 0 := by rw [EventWord.rsvNat, e]; omega
  rw [Statement, encode, Code.wellFormed, EventWord.invalid, h1, h2]
  simp

theorem fail : Statement .fail := by unfold Statement; decide
theorem rearm : Statement .rearm := by unfold Statement; decide
theorem reset : Statement .reset := by unfold Statement; decide
theorem busAddrW : Statement .busAddrW := by unfold Statement; decide
theorem busAddrR : Statement .busAddrR := by unfold Statement; decide
theorem busSel (c : Byte) : Statement (.busSel c) := rfl
theorem busResLo (d : Byte) (a : Ack) : Statement (.busResLo d a) := rfl
theorem busResHi (d : Byte) (a : Ack) : Statement (.busResHi d a) := rfl

end Sys2Proof.Laws.CodeWellFormed
end

