-- ==== Sys2Proof/Laws/Steps.lean ====
section
/-!
SUPPORT. One inversion of exec, of a move and of the step: everything one step of the whole system can do to the core and
its environment (60_exceptions.md R208).
-/

namespace Sys2Proof.Machine

/-- Everything one step can do to the system of an instance `c`: a core service that is eligible, reset, or an environment
step that is enabled. -/
inductive SystemStep (c : Config) (s : System c.n) : System c.n → Prop where
  | amW (h : eligible s = some .amW) : SystemStep c s (amWEffect s)
  | amR (h : eligible s = some .amR) : SystemStep c s (amREffect c s)
  | rx (b : Byte) (h : eligible s = some (.rx b)) : SystemStep c s (rxEffect b s)
  | txr (h : eligible s = some .txr) : SystemStep c s (txrEffect s)
  | stop (h : eligible s = some .stop) : SystemStep c s (stopEffect s)
  | nack (h : eligible s = some .nack) : SystemStep c s (nackEffect s)
  | ovr (h : eligible s = some .ovr) : SystemStep c s (ovrEffect s)
  | done (v : Half) (h : eligible s = some (.done v)) : SystemStep c s (doneEffect c s)
  | fail (h : eligible s = some .fail) : SystemStep c s (failEffect c s)
  | rearm (h : eligible s = some .rearm) : SystemStep c s (rearmEffect s)
  | reset : SystemStep c s (resetEffect s)
  | addr (a : BusAddr) (d : Dir) (h : busFree s = true) : SystemStep c s (mAddrEffect c a d s)
  | wr (b : Byte) (h : writeEnabled s = true) : SystemStep c s (mWrEffect b s)
  | lose (h : writeEnabled s = true) : SystemStep c s (mLoseEffect s)
  | rd (a : Ack) (h : readEnabled s = true) : SystemStep c s (mRdEffect a s)
  | masterStop (h : busFree s = true) : SystemStep c s (mStopEffect s)
  | finish (v : Half) (h : finishEnabled s = true) : SystemStep c s (cFinishEffect v s)
  | convFail (h : convFailEnabled c s = true) : SystemStep c s (setConvStatus .err s)

/-- A system step of this hardware, with the model's own fields kept. -/
def Moves (s t : State) : Prop :=
  SystemStep Config.esplant s.toSystem t.toSystem ∧ t.agenda = s.agenda ∧ t.draws = s.draws

theorem moves_of_serve {i : Instr} {f : System Config.esplant.n → System Config.esplant.n} {s t : State}
    (h : onSystem (serve i f) s = .next t) (hs : eligible s.toSystem = some i → SystemStep Config.esplant s.toSystem (f s.toSystem)) :
    Moves s t := by
  obtain ⟨u, hu, rfl⟩ := onSystem_next.mp h
  obtain ⟨he, rfl⟩ := serve_next.mp hu
  exact ⟨hs he, rfl, rfl⟩

theorem moves_of_act {e : System Config.esplant.n → Bool} {f : System Config.esplant.n → System Config.esplant.n} {s t : State}
    (h : onSystem (fun u => act (e u) f u) s = .next t)
    (hs : e s.toSystem = true → SystemStep Config.esplant s.toSystem (f s.toSystem)) : Moves s t := by
  obtain ⟨u, hu, rfl⟩ := onSystem_next.mp h
  obtain ⟨he, rfl⟩ := act_next.mp hu
  exact ⟨hs he, rfl, rfl⟩

theorem readFrame_next {n : Nat} {high : Bool} {d : Byte} {a : Ack} {s t : System n} :
    readFrame high d a s = .next t
      ↔ stagedIsHigh s = high ∧ s.stg.data = d ∧ readEnabled s = true ∧ t = mRdEffect a s := by
  unfold readFrame
  split
  · simp_all [mRd, act_next]
  · simp_all

/-- An instruction that answers a next state makes one system step. -/
theorem moves_of_exec {i : Instr} {s t : State} (h : exec i s = .next t) : Moves s t := by
  cases i with
  | amW => exact moves_of_serve h .amW
  | amR => exact moves_of_serve h .amR
  | rx b => exact moves_of_serve h (.rx b)
  | txr => exact moves_of_serve h .txr
  | stop => exact moves_of_serve h .stop
  | nack => exact moves_of_serve h .nack
  | ovr => exact moves_of_serve h .ovr
  | done v => exact moves_of_serve h (.done v)
  | fail => exact moves_of_serve h .fail
  | rearm => exact moves_of_serve h .rearm
  | reset =>
    cases h
    exact ⟨.reset, rfl, rfl⟩
  | busAddrW => exact moves_of_act h (.addr _ _)
  | busAddrR => exact moves_of_act h (.addr _ _)
  | busSel c => exact moves_of_act h (.wr c)
  | busResLo d a =>
    obtain ⟨u, hu, rfl⟩ := onSystem_next.mp h
    obtain ⟨-, -, he, rfl⟩ := readFrame_next.mp hu
    exact ⟨.rd a he, rfl, rfl⟩
  | busResHi d a =>
    obtain ⟨u, hu, rfl⟩ := onSystem_next.mp h
    obtain ⟨-, -, he, rfl⟩ := readFrame_next.mp hu
    exact ⟨.rd a he, rfl, rfl⟩

/-- A move that happens makes one system step. -/
theorem moves_of_takeMove {m : Move} {s t : State} (h : takeMove m s = .next t) : Moves s t := by
  have hcode : ∀ c, takeCode c s = .next t → Moves s t := by
    intro c hc
    unfold takeCode at hc
    split at hc
    · exact moves_of_exec hc
    · unfold takeUndecoded at hc
      split at hc
      · exact moves_of_act hc (.addr _ _)
      all_goals cases hc
  cases m with
  | service =>
    simp only [takeMove, takeService] at h
    split at h
    · exact moves_of_exec h
    · cases h
  | code c => exact hcode c h
  | lose b => exact moves_of_act h .lose
  | rd a => exact hcode _ h
  | stop => exact moves_of_act h .masterStop
  | finish v => exact moves_of_act h (.finish v)
  | convFail => exact moves_of_act h .convFail

/-! ### Moves in terms of their steps -/

/-- The master's read is the step R175, whichever frame it shows on the wire. -/
theorem takeMove_rd (a : Ack) (s : State) : takeMove (.rd a) s = onSystem (mRd a) s := by
  simp only [takeMove, takeCode, stagedFrame]
  cases h : stagedIsHigh s.toSystem <;>
    simp [decode, exec, execBusResLo, execBusResHi, onSystem, readFrame, h]

/-- An address phase is the step R172, whatever the address. -/
theorem takeMove_moveAddr (a : BusAddr) (d : Dir) (s : State) :
    takeMove (moveAddr a d) s = onSystem (mAddr Config.esplant a d) s := by
  simp only [takeMove, takeCode, moveAddr, decode, decodeAddressByte_addressByte]
  by_cases h : a = Config.esplant.ownAddr
  · rw [if_pos h, h]
    cases d <;> rfl
  · rw [if_neg h]
    simp only [takeUndecoded, addressOf_addressByte, directionOf_addressByte]

/-- A data byte of a write is the step R173. -/
theorem takeMove_moveWr (b : Byte) (s : State) : takeMove (moveWr b) s = onSystem (mWr b) s := rfl

/-- The core's move is the eligible service. -/
theorem takeMove_service {i : Instr} {s : State} (h : eligible s.toSystem = some i) : takeMove .service s = exec i s := by
  simp only [takeMove, takeService, h]

/-- Moves are taken one after the other. -/
theorem takeMoves_cons {m : Move} {ms : List Move} {s t : State} (h : takeMove m s = .next t) :
    takeMoves (m :: ms) s = takeMoves ms t := by
  simp only [takeMoves, h]

/-- The same, under a claim about the last state. -/
theorem takeMoves_cons_exists {m : Move} {ms : List Move} {s t : State} {P : State → Prop} (h : takeMove m s = .next t)
    (ht : ∃ u, takeMoves ms t = .next u ∧ P u) : ∃ u, takeMoves (m :: ms) s = .next u ∧ P u := by
  rwa [takeMoves_cons h]

/-- The core's move, where the eligible service is `i` with effect `f`. -/
theorem takeMove_serve {i : Instr} {f : System Config.esplant.n → System Config.esplant.n} {s : State}
    (h : eligible s.toSystem = some i) (he : exec i s = onSystem (serve i f) s) :
    takeMove .service s = .next { s with toSystem := f s.toSystem } := by
  rw [takeMove_service h, he]
  exact onSystem_serve _ h

/-- The master's read, where a byte is staged for it. -/
theorem takeMove_rd_next {s : State} (a : Ack) (h : readEnabled s.toSystem = true) :
    takeMove (.rd a) s = .next { s with toSystem := mRdEffect a s.toSystem } := by
  rw [takeMove_rd]
  exact onSystem_act _ _ h

/-- An address phase that the core acknowledges. -/
theorem takeMove_ownAddress {s : State} (d : Dir) (h : s.pend = pendNone) (ha : s.acken = true) :
    takeMove (moveAddr 0x50 d) s
      = .next { s with
          toSystem := raiseCondition (amWord d) { observe .ack s.toSystem with addressed := true, mnack := false } } := by
  rw [takeMove_moveAddr]
  refine (onSystem_act _ _ (busFree_iff.mpr h)).trans ?_
  simp [mAddrEffect, addressAcked, ha]

/-! ### The step -/

/-- One step of the machine starts in a well-formed state, and either waits or makes one system step. -/
theorem step_cases {s t : State} (h : step s = .next t) :
    s.toSystem.wellFormed = true
      ∧ (t.toSystem = s.toSystem ∨ SystemStep Config.esplant s.toSystem t.toSystem) := by
  unfold step guardedStep at h
  split at h
  case isFalse => cases h
  case isTrue hw =>
  refine ⟨hw, ?_⟩
  unfold nextStep at h
  split at h
  · exact .inr (moves_of_takeMove h).1
  · unfold chosenStep at h
    split at h
    case h_1 hm => cases h; exact .inr (moves_of_takeMove hm).1
    all_goals
      unfold waitStep at h
      split at h
      · exact .inr (moves_of_exec h).1
      · cases h; exact .inl rfl

end Sys2Proof.Machine
end

