-- ==== Sys2Proof/Laws/Trace.lean ====
section
/-!
SUPPORT. What the trace records (30_encoding.md R86): the word of each service, and that a move and the move with its service
named do the same; when a finite run may end (45_environment.md R180).
-/

namespace Sys2Proof.Machine

/-- The word recorded for an instruction is its encoding. -/
theorem wordOf_eq_some {i : Instr} {w : EventWord} : wordOf i = some w ↔ encode i = .event32 w := by
  cases i <;> simp [wordOf, encode]

/-- The eligible service is an event, so it has a word. -/
theorem wordOf_of_eligible {n : Nat} {s : System n} {i : Instr} (h : eligible s = some i) : ∃ w, wordOf i = some w := by
  rcases eligible_cases h with ⟨_, rfl⟩ | ⟨_, rfl⟩ | ⟨_, h2⟩ | ⟨_, _, rfl⟩ | ⟨_, _, _, rfl⟩
  · exact ⟨_, rfl⟩
  · exact ⟨_, rfl⟩
  · rcases heldEvent_cases h2 with ⟨rfl, _⟩ | ⟨rfl, _⟩ | ⟨b, rfl, _⟩ | ⟨rfl, _⟩ | ⟨rfl, _⟩ | ⟨rfl, _⟩ <;> exact ⟨_, rfl⟩
  · exact ⟨_, rfl⟩
  · exact ⟨_, rfl⟩

/-- An event word that decodes runs its instruction. -/
theorem takeMove_moveWord {w : EventWord} {i : Instr} (h : decodeEvent w = some i) (s : State) :
    takeMove (moveWord w) s = exec i s := by
  simp only [takeMove, moveWord, takeCode, decode, h]

/-- The word recorded for the eligible service decodes to it. -/
theorem decodeEvent_of_wordOf {n : Nat} {s : System n} {i : Instr} {w : EventWord} (h : eligible s = some i)
    (hw : wordOf i = some w) : decodeEvent w = some i := by
  rw [wordOf_eq_some] at hw
  rcases eligible_cases h with ⟨_, rfl⟩ | ⟨_, rfl⟩ | ⟨_, h2⟩ | ⟨_, _, rfl⟩ | ⟨_, _, _, rfl⟩
  · cases hw; simp
  · cases hw; simp
  · rcases heldEvent_cases h2 with ⟨rfl, _⟩ | ⟨rfl, _⟩ | ⟨b, rfl, _⟩ | ⟨rfl, _⟩ | ⟨rfl, _⟩ | ⟨rfl, _⟩ <;> cases hw <;> simp
  · cases hw; simp
  · cases hw; simp

@[simp] theorem eventWordIn_moveWord (w : EventWord) : eventWordIn (moveWord w) = some w := rfl
@[simp] theorem servicedWord_moveWord {n : Nat} (w : EventWord) (s : System n) : servicedWord (moveWord w) s = some w := rfl

/-- Naming the service does not change what the move does. -/
theorem takeMove_nameService (m : Move) (s : State) : takeMove (nameService m s.toSystem) s = takeMove m s := by
  unfold nameService
  split
  case h_2 => rfl
  case h_1 w hw =>
    cases m with
    | service =>
      obtain ⟨i, hi, hw⟩ := Option.bind_eq_some_iff.mp hw
      rw [takeMove_service hi, takeMove_moveWord (decodeEvent_of_wordOf hi hw)]
    | code c => cases c <;> cases hw; rfl
    | _ => cases hw

/-- The word that the named move shows is the one recorded. -/
theorem eventWordIn_nameService {n : Nat} (m : Move) (s : System n) : eventWordIn (nameService m s) = servicedWord m s := by
  unfold nameService
  split
  case h_1 w hw => rw [hw]; rfl
  case h_2 hn =>
    rw [hn]
    cases m with
    | service => rfl
    | _ => exact hn

@[simp] theorem traceOf_nil (s : State) : traceOf [] s = [] := rfl

/-- The trace of a run begins with the word of its first move. -/
theorem traceOf_cons {m : Move} {ms : List Move} {s t : State} (h : takeMove m s = .next t) :
    traceOf (m :: ms) s = (servicedWord m s.toSystem).toList ++ traceOf ms t := by
  simp only [traceOf, h]

theorem replayOf_cons {m : Move} {ms : List Move} {s t : State} (h : takeMove m s = .next t) :
    replayOf (m :: ms) s = nameService m s.toSystem :: replayOf ms t := by
  simp only [replayOf, h]

/-- A finite run as a sequence of states, which stays at its last. -/
def runFrom : List Move → State → Nat → State
  | _, s, 0 => s
  | [], s, _ + 1 => s
  | m :: ms, s, k + 1 =>
    match takeMove m s with
    | .next t => runFrom ms t k
    | .fault _ => s
    | .refused _ => s

theorem runFrom_cons {m : Move} {ms : List Move} {s t : State} (h : takeMove m s = .next t) (k : Nat) :
    runFrom (m :: ms) s (k + 1) = runFrom ms t k := by
  simp only [runFrom, h]

@[simp] theorem runFrom_zero (ms : List Move) (s : State) : runFrom ms s 0 = s := by cases ms <;> rfl
@[simp] theorem runFrom_nil (s : State) (k : Nat) : runFrom [] s k = s := by cases k <;> rfl

/-- Moves that can be taken in order are a run, with nothing after them. -/
theorem isRun_runFrom {ms : List Move} {s t : State} (h : takeMoves ms s = .next t) :
    IsRun (fun k => ms[k]?) (runFrom ms s) := by
  induction ms generalizing s with
  | nil => intro k; simp
  | cons m ms ih =>
    simp only [takeMoves] at h
    split at h
    case h_1 u hu =>
      intro k
      cases k with
      | zero => simp [runFrom_cons hu, hu]
      | succ k =>
        have hk := ih h k
        simpa [runFrom_cons hu] using hk
    all_goals cases h

/-- A finite run stays in the state in which its moves end. -/
theorem runFrom_of_length_le {ms : List Move} {s t : State} (h : takeMoves ms s = .next t) {k : Nat} (hk : ms.length ≤ k) :
    runFrom ms s k = t := by
  induction ms generalizing s k with
  | nil => cases h; simp
  | cons m ms ih =>
    simp only [takeMoves] at h
    split at h
    case h_1 u hu =>
      cases k with
      | zero => simp at hk
      | succ k => rw [runFrom_cons hu]; exact ih h (by simpa using hk)
    all_goals cases h

/-- A run that stays where no service is eligible and no conversion is in flight is fair. -/
theorem fair_of_rest {moves : Nat → Option Move} {run : Nat → State} {t : State} {n : Nat} (h : ∀ k, n ≤ k → run k = t)
    (he : eligible t.toSystem = none) (hc : t.conv.st ≠ .busy) : Fair moves run := by
  refine ⟨fun k i hk => ?_, fun k hk => ?_⟩
  · have := hk (max k n) (by omega)
    rw [h _ (by omega), he] at this
    cases this
  · have := hk (max k n) (by omega)
    rw [h _ (by omega)] at this
    exact absurd this hc

end Sys2Proof.Machine
end

