-- ==== Sys2Proof/Machine/Text.lean ====
section
/-!
DEFINITION. The textual syntax of services (30_encoding.md R92), environment steps (R93) and pseudo-instructions (R94). A
number is read in hexadecimal or decimal and written in hexadecimal (DESIGN CHOICE, log 17). No other definition reads this
file: what a line means is the meaning of the instruction or move that it names.
-/

namespace Sys2Proof.Machine

/-! ### Numbers -/

def hexDigit (d : Nat) : Char := "0123456789ABCDEF".toList.getD d '0'

/-- The last `k` hexadecimal digits of a number, the most significant first. -/
def hexDigits : Nat → Nat → List Char
  | 0, _ => []
  | k + 1, v => hexDigit (v / 16 ^ k % 16) :: hexDigits k v

def hexText (k v : Nat) : String := "0x" ++ String.ofList (hexDigits k v)

def digitValue (c : Char) : Option Nat :=
  let d := "0123456789abcdef".toList.idxOf c.toLower
  if d < 16 then some d else none

def readDigits (base : Nat) : List Char → Nat → Option Nat
  | [], v => some v
  | c :: cs, v =>
    match digitValue c with
    | some d => if d < base then readDigits base cs (v * base + d) else none
    | none => none

/-- R92: `0x..` or decimal. -/
def readNumber (t : String) : Option Nat :=
  match t.toList with
  | [] => none
  | '0' :: 'x' :: c :: cs => readDigits 16 (c :: cs) 0
  | c :: cs => readDigits 10 (c :: cs) 0

/-- An operand of `n` bits; a number that does not fit is no operand. -/
def readBits (n : Nat) (t : String) : Option (BitVec n) :=
  match readNumber t with
  | some v => if v < 2 ^ n then some (BitVec.ofNat n v) else none
  | none => none

/-! ### Writing -/

def ackText : Ack → String
  | .ack => "ack"
  | .nack => "nack"

/-- R92 for the events; a bus frame is written as the step that carries it (R93). -/
def instrText : Instr → String
  | .amW => "am.w"
  | .amR => "am.r"
  | .rx b => "rx " ++ hexText 2 b.toNat
  | .txr => "txr"
  | .stop => "stop"
  | .nack => "nack"
  | .ovr => "ovr"
  | .done v => "done " ++ hexText 4 v.toNat
  | .fail => "fail"
  | .rearm => "rearm"
  | .reset => "reset"
  | .busAddrW => "M.addr 0x50, w"
  | .busAddrR => "M.addr 0x50, r"
  | .busSel c => "M.wr " ++ hexText 2 c.toNat
  | .busResLo _ a => "M.rd " ++ ackText a
  | .busResHi _ a => "M.rd " ++ ackText a

/-! ### Reading -/

/-- The words of a line; a comma only separates. -/
def lineWords (t : String) : List String :=
  ((t.toList.filter (fun c => c != ',')).splitOn ' ').map String.ofList

/-- R92. -/
def readEvent (t : String) : Option Instr :=
  match lineWords t with
  | ["am.w"] => some .amW
  | ["am.r"] => some .amR
  | ["rx", b] => (readBits 8 b).map Instr.rx
  | ["txr"] => some .txr
  | ["stop"] => some .stop
  | ["nack"] => some .nack
  | ["ovr"] => some .ovr
  | ["done", v] => (readBits 16 v).map Instr.done
  | ["fail"] => some .fail
  | ["rearm"] => some .rearm
  | ["reset"] => some .reset
  | _ => none

/-- R93. -/
def readStep (t : String) : Option Move :=
  match lineWords t with
  | ["M.addr", a, "w"] => (readBits 7 a).map (fun x => moveAddr x .w)
  | ["M.addr", a, "r"] => (readBits 7 a).map (fun x => moveAddr x .r)
  | ["M.wr", b] => (readBits 8 b).map moveWr
  | ["M.lose", b] => (readBits 8 b).map Move.lose
  | ["M.rd", "ack"] => some (.rd .ack)
  | ["M.rd", "nack"] => some (.rd .nack)
  | ["M.stop"] => some .stop
  | ["C.finish", v] => (readBits 16 v).map Move.finish
  | ["C.fail"] => some .convFail
  | _ => none

/-- R94. -/
def readPseudo (t : String) : Option Pseudo :=
  match lineWords t with
  | ["WRITE", c] => (readBits 8 c).map Pseudo.write
  | ["READ2"] => some .read2
  | ["READ", k] => ((readNumber k).map Pseudo.read).filter Pseudo.wellFormed
  | ["SELREAD", c] => (readBits 8 c).map Pseudo.selread
  | ["PROBE"] => some .probe
  | _ => none

end Sys2Proof.Machine
end

