-- ==== Sys2Proof/Tests/Slice0.lean ====
section
/-!
SUPPORT. The model's own tests: what the checks refuse, what the decoder reads, one step of each instruction, and a witness
for the hypotheses of every obligation. Expected values stand in spec/95_test_vectors.md (the vector's id is cited) or follow
from the rule cited.
-/

namespace Sys2Proof.Tests

open Sys2Proof Sys2Proof.Machine

/-! ### Helpers -/

/-- The next state, where there is one. -/
def nextOf {α : Type} (o : Host.Outcome α Fault Refusal) : Option α :=
  match o with
  | .next t => some t
  | .fault _ => none
  | .refused _ => none

/-- The refusal, where there is one. -/
def refusalOf {α : Type} (o : Host.Outcome α Fault Refusal) : Option Refusal :=
  match o with
  | .refused r => some r
  | .next _ => none
  | .fault _ => none

theorem exists_next {α : Type} {o : Host.Outcome α Fault Refusal} (h : (nextOf o).isSome = true) : ∃ t, o = .next t := by
  cases o with
  | next t => exact ⟨t, rfl⟩
  | fault r => cases h
  | refused r => cases h

/-- S0 of 95_test_vectors.md. -/
def s0 : State := State.reset

/-- S0 with a condition held. -/
def held (w : EventWord) : State := { s0 with pend := w }

/-- A write transaction of the core, after its address match. -/
def writing : State := { s0 with phase := .addrW, addressed := true }

/-- A read transaction of the core, with byte `b` staged. -/
def reading (b : Byte) : State := { s0 with phase := .transmitting, addressed := true, stg := ⟨true, b⟩ }

/-- A conversion on channel 3, awaited. -/
def awaiting : State :=
  { s0 with sel := 0x03, chen := 0b0001000, cur := .notReady, conv := ⟨.busy, 0x03, 0x0000⟩ }

/-- The same, finished with 0x0ABC. -/
def finished : State := { awaiting with conv := ⟨.eoc, 0x03, 0x0ABC⟩ }

/-- The same, failed. -/
def failed : State := { awaiting with conv := ⟨.err, 0x03, 0x0000⟩ }

/-- After a stop. -/
def stopped : State := { s0 with phase := .stopped, acken := false }

/-- A configuration with two known channels, one that fails and captures always. -/
def twoChannels : Config := ⟨0x50, 2, [⟨4⟩, ⟨9⟩], false, true, true⟩

/-! ### WellFormed: each check refuses an ill-formed term -/

theorem test_wf_tag_zero : EventWord.invalid 0x00000000 = true := by decide
theorem test_wf_tag_reserved_low : EventWord.invalid 0xB0000000 = true := by decide
theorem test_wf_tag_reserved_high : EventWord.invalid 0xF0000000 = true := by decide
theorem test_wf_reserved_bits : EventWord.invalid 0x70010000 = true := by decide
theorem test_wf_am_payload : EventWord.invalid 0x10000002 = true := by decide
theorem test_wf_rx_payload : EventWord.invalid 0x20000100 = true := by decide
theorem test_wf_bare_payload : EventWord.invalid 0x30000001 = true ∧ EventWord.invalid 0xA0000001 = true := by decide
theorem test_wf_valid_words : EventWord.invalid 0x7000FFFF = false ∧ EventWord.invalid 0x200000FF = false := by decide
theorem test_wf_code_word : (Code.event32 0xB0000000).wellFormed = false := by decide
theorem test_wf_code_other_device :
    (Code.busAddressByte 0xA2).wellFormed = false ∧ (Code.busAddressByte 0xA1).wellFormed = true := by decide
theorem test_wf_read_zero : (Pseudo.read 0).wellFormed = false ∧ (Pseudo.read 1).wellFormed = true := by decide
theorem test_wf_config_no_channel : Config.wellFormed ⟨0x50, 0, [], true, false, false⟩ = false := by decide
theorem test_wf_config_too_many :
    Config.wellFormed ⟨0x50, 257, List.replicate 257 ⟨0⟩, true, false, false⟩ = false := by
  rfl
theorem test_wf_config_length : Config.wellFormed ⟨0x50, 2, [⟨0⟩], true, false, false⟩ = false := by decide
theorem test_wf_config_repeated : Config.wellFormed ⟨0x50, 2, [⟨3⟩, ⟨3⟩], true, false, false⟩ = false := by decide
theorem test_wf_config_good : twoChannels.wellFormed = true := by decide

/-- Each clause of R39 and R38 refuses a state. -/
theorem test_wf_state_reserved_phase : System.wellFormed { s0.toSystem with phase := .reserved6 } = false := by decide
theorem test_wf_state_channel : System.wellFormed { s0.toSystem with conv := ⟨.busy, 0x07, 0⟩ } = false := by decide
theorem test_wf_state_pend : System.wellFormed { s0.toSystem with pend := 0x30000000 } = false := by decide
theorem test_wf_state_inv1 : System.wellFormed { s0.toSystem with acken := false } = false := by decide
theorem test_wf_state_inv2 : System.wellFormed { s0.toSystem with cur := .notReady } = false := by decide
theorem test_wf_state_reset : s0.toSystem.wellFormed = true := by decide

/-! ### Decoding: words written out from R81, R82, R88 (vectors DEC1 to DEC22) -/

theorem test_dec_am : decodeEvent 0x10000000 = some .amW ∧ decodeEvent 0x10000001 = some .amR := by decide
theorem test_dec3 : decodeEvent 0x10000002 = none := by decide
theorem test_dec_rx : decodeEvent 0x20000003 = some (.rx 0x03) ∧ decodeEvent 0x200000FF = some (.rx 0xFF) := by decide
theorem test_dec6 : decodeEvent 0x20000100 = none := by decide
theorem test_dec7 : decodeEvent 0x30000000 = some .txr := by decide
theorem test_dec8 : decodeEvent 0x30000001 = none := by decide
theorem test_dec9 : decodeEvent 0x40000000 = some .stop := by decide
theorem test_dec10 : decodeEvent 0x50000000 = some .nack := by decide
theorem test_dec11 : decodeEvent 0x60000000 = some .ovr := by decide
theorem test_dec_done :
    decodeEvent 0x70000ABC = some (.done 0x0ABC) ∧ decodeEvent 0x7000FFFF = some (.done 0xFFFF) := by decide
theorem test_dec14 : decodeEvent 0x70010000 = none := by decide
theorem test_dec15 : decodeEvent 0x80000000 = some .fail := by decide
theorem test_dec16 : decodeEvent 0x90000000 = some .rearm := by decide
theorem test_dec17 : decodeEvent 0xA0000000 = some .reset := by decide
theorem test_dec18 : decodeEvent 0x00000000 = none := by decide
theorem test_dec19 : decodeEvent 0xB0000000 = none ∧ decodeEvent 0xF0000000 = none := by decide
theorem test_dec21 : decodeEvent 0x1F000000 = none := by decide
theorem test_dec22 : decodeEvent 0xA0000001 = none := by decide

/-- R88: 0x50 with RW 0 and 1 is 0xA0 and 0xA1; 0xA2 is address 0x51. -/
theorem test_dec_address :
    decode (.busAddressByte 0b10100000) = some .busAddrW ∧ decode (.busAddressByte 0b10100001) = some .busAddrR
      ∧ decode (.busAddressByte 0b10100010) = none := by decide
theorem test_dec_selector : decode (.busWriteDataByte 0b00001001) = some (.busSel 0x09) := by decide

/-- R91: 0 on the wire is ACK. -/
theorem test_dec_read_bytes :
    decode (.busReadDataByte0 0xBC 0) = some (.busResLo 0xBC .ack)
      ∧ decode (.busReadDataByte1 0x0A 1) = some (.busResHi 0x0A .nack) := by decide

/-- R85: no two rows share a word. -/
theorem test_rows_disjoint : eventRows.Pairwise (fun r t => r.disjoint t = true) := by decide

theorem test_row_masks :
    (eventRows.map (fun r => (r.holds 0x200000FF, r.holds 0x7000FFFF, r.holds 0x20000100))).count (true, false, false) = 1
      ∧ (eventRows.map (fun r => (r.holds 0x200000FF, r.holds 0x7000FFFF, r.holds 0x20000100))).count (false, true, false) = 1
      ∧ (eventRows.map (fun r => r.holds 0x20000100)).count true = 0 := by decide

/-! ### Text (R92 to R94) -/

theorem test_text_rx : (readEvent "rx 0x03").map encode = some (.event32 0x20000003) := by decide
theorem test_text_done : (readEvent "done 0x0ABC").map encode = some (.event32 0x70000ABC) := by decide
theorem test_text_decimal : readEvent "rx 17" = some (.rx 0x11) ∧ readEvent "rx 256" = none := by decide
theorem test_text_write : instrText (.done 0x0ABC) = "done 0x0ABC" := by decide
theorem test_text_step : readStep "M.addr 0x51, r" = some (.code (.busAddressByte 0xA3)) := by decide
theorem test_text_pseudo : readPseudo "READ 0" = none ∧ readPseudo "WRITE 9" = some (.write 0x09) := by decide

/-- R94: the bytes of `SELREAD c` on the wire. -/
theorem test_expand_selread :
    expand (.selread 0x03)
      = [.code (.busAddressByte 0xA0), .code (.busWriteDataByte 0x03), .code (.busAddressByte 0xA1), .rd .ack, .rd .nack,
          .stop] := by decide
theorem test_expand_read_three :
    expand (.read 3) = [.code (.busAddressByte 0xA1), .rd .ack, .rd .ack, .rd .nack, .stop] := by decide

/-! ### One step of each instruction (95_test_vectors.md section 2) -/

theorem test_AW2 :
    nextOf (exec .amW
        { s0 with pend := 0x10000000, phase := .transmitting, txreq := true, stg := ⟨true, 0x0A⟩, cur := .done, res := 0x0ABC })
      = some { s0 with phase := .addrW, stg := ⟨true, 0x0A⟩, cur := .done, res := 0x0ABC } := by decide
theorem test_AW3 : nextOf (exec .amW { finished with pend := 0x10000000 }) = none := by decide
theorem test_AR1 :
    nextOf (exec .amR { s0 with pend := 0x10000001, res := 0x0ABC, cur := .done, stg := ⟨true, 0x0A⟩ })
      = some { s0 with res := 0x0ABC, cur := .zero, stg := ⟨false, 0x0A⟩, phase := .addrR, txreq := true } := by decide
theorem test_AR2 :
    nextOf (exec .amR { awaiting with pend := 0x10000001 })
      = some { awaiting with phase := .addrR, txreq := true } := by decide
theorem test_AR4 :
    (amREffect twoChannels { System.reset 2 with pend := 0x10000001, res := 0x0ABC, cur := .one, stg := ⟨true, 0xBC⟩ }).cur
      = .one := by decide
theorem test_RX2 :
    nextOf (exec (.rx 0x06) { s0 with pend := 0x20000006, phase := .addrW })
      = some { s0 with
          sel := 0x06, chen := 0b1000000, cur := .notReady, conv := ⟨.busy, 0x06, 0x0000⟩, phase := .receiving } := by decide
theorem test_RX8 :
    nextOf (exec (.rx 0x09) { awaiting with pend := 0x20000009, phase := .addrW, res := 0x1234 })
      = some { awaiting with sel := 0x09, res := 0xFFFF, cur := .zero, phase := .receiving } := by decide
theorem test_RX10 : (rxEffect 0xFF (System.reset 256)).chen = 1#256 <<< 255 := by decide
theorem test_RX11 :
    (rxEffect 0x01 (System.reset 1)).cur = .zero ∧ (rxEffect 0x00 (System.reset 1)).chen = 0b1 := by decide
theorem test_TX1 :
    nextOf (exec .txr { s0 with res := 0x0ABC, phase := .addrR, txreq := true })
      = some { s0 with res := 0x0ABC, stg := ⟨true, 0xBC⟩, cur := .one, phase := .transmitting } := by decide
theorem test_TX8 :
    nextOf (exec .txr { s0 with res := 0x8001, cur := .one, phase := .transmitting, txreq := true })
      = some { s0 with res := 0x8001, stg := ⟨true, 0x80⟩, cur := .done, phase := .transmitting } := by decide
theorem test_ST1 :
    nextOf (exec .stop { awaiting with pend := 0x40000000, phase := .receiving })
      = some { awaiting with phase := .stopped, acken := false } := by decide
theorem test_NK1 :
    nextOf (exec .nack { s0 with pend := 0x50000000, phase := .transmitting, cur := .done })
      = some { s0 with phase := .transmitting, cur := .done } := by decide
theorem test_OV1 :
    nextOf (exec .ovr { s0 with pend := 0x60000000, phase := .addrW, sel := 0x03 })
      = some { s0 with phase := .addrW, sel := 0x03 } := by decide
theorem test_RA1 : nextOf (exec .rearm stopped) = some s0 := by decide
theorem test_RA2 :
    nextOf (exec .rearm { finished with phase := .stopped, acken := false }) = none
      ∧ eligible finished.toSystem = some (.done 0x0ABC) := by decide
theorem test_DN1 :
    nextOf (exec (.done 0x0ABC) finished)
      = some { finished with res := 0x0ABC, cur := .one, stg := ⟨true, 0xBC⟩, conv := ⟨.idle, 0x03, 0x0ABC⟩ } := by decide
theorem test_DN3 :
    (doneEffect twoChannels { System.reset 2 with conv := ⟨.eoc, 0x01, 0x0ABC⟩ }).stg = ⟨true, 0xBC⟩ := by decide
theorem test_FL1 :
    nextOf (exec .fail { failed with res := 0x1234 })
      = some { failed with res := 0xFFFF, cur := .one, stg := ⟨true, 0xFF⟩, conv := ⟨.idle, 0x03, 0x0000⟩ } := by decide
theorem test_FL2 :
    nextOf (exec .fail { s0 with conv := ⟨.err, 0x03, 0x0000⟩ })
      = some { s0 with conv := ⟨.idle, 0x03, 0x0000⟩ } := by decide
theorem test_RS1 :
    nextOf (exec .reset
        { s0 with
          sel := 0x03, res := 0x0ABC, cur := .one, stg := ⟨true, 0xBC⟩, phase := .transmitting, txreq := true
          chen := 0b0001000, pend := 0x50000000, conv := ⟨.busy, 0x05, 0⟩, addressed := true, mobs := [.ack] })
      = some { s0 with mobs := [.ack] } := by decide
theorem test_EN1 :
    nextOf (exec .busAddrW s0) = some { s0 with mobs := [.ack], addressed := true, pend := 0x10000000 } := by decide
theorem test_EN2 : nextOf (exec .busAddrR stopped) = some { stopped with mobs := [.nack] } := by decide
theorem test_EN3 :
    nextOf (takeMove (moveAddr 0x51 .w) { s0 with phase := .receiving, addressed := true })
      = some { s0 with phase := .receiving, mobs := [.nack] } := by decide
theorem test_bus_sel :
    nextOf (exec (.busSel 0x03) writing) = some { writing with mobs := [.ack], pend := 0x20000003 } := by decide
theorem test_EN4 :
    nextOf (exec (.busResLo 0xBC .ack) { reading 0xBC with cur := .one })
      = some { reading 0xBC with cur := .one, mobs := [.byte 0xBC], stg := ⟨false, 0xBC⟩, txreq := true } := by decide
theorem test_EN5 :
    nextOf (exec (.busResHi 0x0A .nack) { reading 0x0A with cur := .done })
      = some { reading 0x0A with
          cur := .done, mobs := [.byte 0x0A], stg := ⟨false, 0x0A⟩, mnack := true, pend := 0x50000000 } := by decide
theorem test_EN6 :
    nextOf (takeMove (.rd .ack) { s0 with phase := .transmitting, addressed := true }) = none
      ∧ restStatus { s0.toSystem with phase := .transmitting, addressed := true } = .stretched := by decide
theorem test_EN8 :
    nextOf (takeMove (.lose 0x05) { writing with phase := .receiving })
      = some { writing with phase := .receiving, mobs := [.ack], pend := 0x60000000 } := by decide
theorem test_EN9 : nextOf (takeMove (.finish 0x0ABC) awaiting) = some finished := by decide
theorem test_PR2 :
    eligible { s0.toSystem with pend := 0x40000000, phase := .transmitting, txreq := true } = some .stop := by decide
theorem test_PR4 : eligible s0.toSystem = none ∧ restStatus s0.toSystem = .atRest := by decide

/-- From reset, the next step runs the event word placed: the read address byte, and an event that reset cannot serve as it
stands. -/
theorem test_placed_word :
    (nextOf (step (State.reset.withFetchWord 8 0xA1))).map (fun t => t.pend) = some 0x10000001
      ∧ (nextOf (step (State.reset.withFetchWord 32 0x20000003))).map (fun t => t.sel) = some 0x03 := by decide

/-- R84: an INVALID word of a trace is refused by name. -/
theorem test_invalid_word : refusalOf (takeMove (.code (.event32 0xB0000000)) s0) = some .invalidEncoding := by decide
theorem test_bad_config : refusalOf (boot ⟨0x50, 0, [], true, false, false⟩) = some .badConfig := by decide

/-! ### Witnesses: each obligation's hypotheses are met, clause by clause -/

theorem test_witness_DecodedCodeIsTheEncoding : decode (.event32 0x200000FF) = some (.rx 0xFF) := by decide

theorem test_witness_InvalidWordsNameNoEvent :
    EventWord.invalid 0x10000002 = true ∧ EventWord.invalid 0x7000FFFF = false := by decide

theorem test_witness_AddressMatchWriteService :
    ((held 0x10000000).pend = 0x10000000 ∧ (held 0x10000000).conv.st ≠ .eoc ∧ (held 0x10000000).conv.st ≠ .err)
      ∧ ¬(s0.pend = 0x10000000 ∧ s0.conv.st ≠ .eoc ∧ s0.conv.st ≠ .err) := by decide
theorem test_witness_AddressMatchWriteService_next :
    (held 0x10000000).toSystem.inv = true ∧ ∃ t, exec .amW (held 0x10000000) = .next t :=
  ⟨by decide, exists_next (by decide)⟩

theorem test_witness_AddressMatchReadService :
    ((held 0x10000001).pend = 0x10000001 ∧ (held 0x10000001).conv.st ≠ .eoc ∧ (held 0x10000001).conv.st ≠ .err)
      ∧ ¬(finished.pend = 0x10000001 ∧ finished.conv.st ≠ .eoc ∧ finished.conv.st ≠ .err) := by decide

/-- The largest valid selector and the smallest invalid one. -/
theorem test_witness_ByteReceivedService :
    ((held 0x20000006).pend = 0x200000#24 ++ 0x06#8 ∧ (held 0x20000006).conv.st ≠ .eoc
        ∧ (held 0x20000006).conv.st ≠ .err ∧ (0x06#8).toNat ≤ 6)
      ∧ ((held 0x20000007).pend = 0x200000#24 ++ 0x07#8 ∧ (held 0x20000007).conv.st ≠ .eoc
        ∧ (held 0x20000007).conv.st ≠ .err ∧ 7 ≤ (0x07#8).toNat)
      ∧ ¬((held 0x20000006).pend = 0x200000#24 ++ 0x07#8 ∧ (held 0x20000006).conv.st ≠ .eoc
        ∧ (held 0x20000006).conv.st ≠ .err) := by decide

/-- `txr` in ADDR_R and in TRANSMITTING, and a state with a full STG, where it is stuck. -/
theorem test_witness_ReadyToTransmitService :
    (∀ s ∈ [{ s0 with phase := .addrR, txreq := true }, { s0 with phase := .transmitting, txreq := true, cur := .done }],
        s.pend = 0 ∧ s.conv.st ≠ .eoc ∧ s.conv.st ≠ .err ∧ (s.phase = .addrR ∨ s.phase = .transmitting)
          ∧ s.stg.full = false ∧ s.txreq = true)
      ∧ ¬((reading 0xBC).pend = 0 ∧ (reading 0xBC).conv.st ≠ .eoc ∧ (reading 0xBC).conv.st ≠ .err
        ∧ ((reading 0xBC).phase = .addrR ∨ (reading 0xBC).phase = .transmitting)
        ∧ (reading 0xBC).stg.full = false ∧ (reading 0xBC).txreq = true) := by decide

theorem test_witness_StopService :
    ((held 0x40000000).pend = 0x40000000 ∧ (held 0x40000000).conv.st ≠ .eoc ∧ (held 0x40000000).conv.st ≠ .err)
      ∧ ¬(s0.pend = 0x40000000 ∧ s0.conv.st ≠ .eoc ∧ s0.conv.st ≠ .err) := by decide
theorem test_witness_StopService_next : ∃ t, exec .stop (held 0x40000000) = .next t := exists_next (by decide)

theorem test_witness_ResetService : ∃ t, exec .reset (reading 0xBC) = .next t := exists_next (by decide)

theorem test_witness_BusErrorServices :
    ((held 0x50000000).pend = 0x50000000 ∧ (held 0x50000000).conv.st ≠ .eoc ∧ (held 0x50000000).conv.st ≠ .err)
      ∧ ¬((held 0x60000000).pend = 0x50000000 ∧ (held 0x60000000).conv.st ≠ .eoc ∧ (held 0x60000000).conv.st ≠ .err)
      ∧ ((held 0x60000000).pend = 0x60000000 ∧ (held 0x60000000).conv.st ≠ .eoc ∧ (held 0x60000000).conv.st ≠ .err)
      ∧ ¬((held 0x50000000).pend = 0x60000000 ∧ (held 0x50000000).conv.st ≠ .eoc ∧ (held 0x50000000).conv.st ≠ .err) := by
  decide

theorem test_witness_RearmService :
    (stopped.phase = .stopped ∧ stopped.pend = 0 ∧ stopped.conv.st ≠ .eoc ∧ stopped.conv.st ≠ .err)
      ∧ ¬(s0.phase = .stopped ∧ s0.pend = 0 ∧ s0.conv.st ≠ .eoc ∧ s0.conv.st ≠ .err) := by decide

/-- The gate is open with the cursor at NOT_READY or with the parameter set, and closed otherwise. -/
theorem test_witness_CaptureGate :
    (finished.cur = .notReady ∨ Config.esplant.captureAfterInvalid = true)
      ∧ ((System.reset twoChannels.n).cur = .notReady ∨ twoChannels.captureAfterInvalid = true)
      ∧ ¬(s0.cur = .notReady ∨ Config.esplant.captureAfterInvalid = true) := by decide

theorem test_witness_ConversionCompleteService :
    (finished.conv.st = .eoc ∧ finished.conv.val = 0x0ABC ∧ finished.cur = .notReady)
      ∧ (({ finished with cur := .zero } : State).conv.st = .eoc ∧ ({ finished with cur := .zero } : State).conv.val = 0x0ABC
        ∧ ({ finished with cur := .zero } : State).cur ≠ .notReady)
      ∧ ¬(finished.conv.st = .eoc ∧ finished.conv.val = 0x0ABD) := by decide

theorem test_witness_ConversionFailedService :
    (failed.conv.st = .err ∧ failed.cur = .notReady)
      ∧ (({ failed with cur := .one } : State).conv.st = .err ∧ ({ failed with cur := .one } : State).cur ≠ .notReady)
      ∧ finished.conv.st ≠ .err := by decide

/-- The last index of a configuration, and the other one below N. -/
theorem test_witness_FanOutEnablesOneChannel :
    twoChannels.wellFormed = true ∧ (0x01#8).toNat < twoChannels.n ∧ 0 < twoChannels.n ∧ (0 : Nat) ≠ (0x01#8).toNat := by
  decide

theorem test_witness_BootChecksTheConfiguration :
    ((1 ≤ twoChannels.n ∧ twoChannels.n ≤ 256) ∧ twoChannels.channelMap.length = twoChannels.n
        ∧ twoChannels.channelMap.Nodup)
      ∧ ¬((1 ≤ 0 ∧ 0 ≤ 256) ∧ ([] : List Phys).length = 0 ∧ ([] : List Phys).Nodup) := by decide

theorem test_witness_AddressPhase :
    (s0.pend = 0 ∧ s0.acken = true) ∧ (stopped.pend = 0 ∧ stopped.acken = false) ∧ (held 0x20000003).pend ≠ 0
      ∧ ((0x51 : BusAddr) ≠ 0x50 ∧ s0.pend = 0) := by decide

/-- Both phases of a write, and a read, where the steps are not possible. -/
theorem test_witness_WriteDataByte :
    (∀ s ∈ [writing, { writing with phase := .receiving }],
        s.pend = 0 ∧ s.addressed = true ∧ (s.phase = .addrW ∨ s.phase = .receiving))
      ∧ ¬((reading 0xBC).pend = 0 ∧ (reading 0xBC).addressed = true
        ∧ ((reading 0xBC).phase = .addrW ∨ (reading 0xBC).phase = .receiving)) := by decide

theorem test_witness_LostDataByte :
    (∀ s ∈ [writing, { writing with phase := .receiving }],
        s.pend = 0 ∧ s.addressed = true ∧ (s.phase = .addrW ∨ s.phase = .receiving))
      ∧ ¬((held 0x20000003).pend = 0 ∧ (held 0x20000003).addressed = true
        ∧ ((held 0x20000003).phase = .addrW ∨ (held 0x20000003).phase = .receiving)) := by decide

theorem test_witness_MasterReadTakesStagedByte :
    (∀ s ∈ [reading 0xBC, { reading 0xBC with phase := .addrR }],
        s.pend = 0 ∧ s.addressed = true ∧ (s.phase = .addrR ∨ s.phase = .transmitting) ∧ s.stg.full = true
          ∧ s.mnack = false)
      ∧ ¬(writing.pend = 0 ∧ writing.addressed = true ∧ (writing.phase = .addrR ∨ writing.phase = .transmitting)
        ∧ writing.stg.full = true ∧ writing.mnack = false) := by decide

theorem test_witness_ReadFrames :
    ((reading 0xBC).pend = 0 ∧ (reading 0xBC).addressed = true
        ∧ ((reading 0xBC).phase = .addrR ∨ (reading 0xBC).phase = .transmitting) ∧ (reading 0xBC).stg = ⟨true, 0xBC⟩
        ∧ (reading 0xBC).mnack = false ∧ (reading 0xBC).cur ≠ .done)
      ∧ (∀ s ∈ [{ reading 0x0A with cur := .done }],
        s.pend = 0 ∧ s.addressed = true ∧ (s.phase = .addrR ∨ s.phase = .transmitting) ∧ s.stg = ⟨true, 0x0A⟩
          ∧ s.mnack = false ∧ s.cur = .done)
      ∧ s0.stg ≠ ⟨true, 0x00⟩ := by decide

theorem test_witness_MasterStop :
    (writing.pend = 0 ∧ writing.addressed = true) ∧ (s0.pend = 0 ∧ s0.addressed = false) ∧ (held 0x10000000).pend ≠ 0 := by
  decide

theorem test_witness_ConverterSteps :
    awaiting.conv.st = .busy ∧ s0.conv.st ≠ .busy
      ∧ (twoChannels.convCanFail = true ∧ (rxEffect 0x01 (System.reset twoChannels.n)).conv.st = .busy)
      ∧ ¬(twoChannels.convCanFail = true ∧ (System.reset twoChannels.n).conv.st = .busy)
      ∧ ¬(Config.esplant.convCanFail = true ∧ awaiting.conv.st = .busy) := by decide

theorem test_witness_StepRunsTheDecodedInstruction :
    (∀ s ∈ [{ s0 with agenda := [.code (.busAddressByte 0xA0), .service] }],
        s.toSystem.wellFormed = true ∧ s.agenda = .code (.busAddressByte 0xA0) :: [.service]
          ∧ decode (.busAddressByte 0xA0) = some .busAddrW)
      ∧ (∀ s ∈ [{ finished with agenda := [.service] }],
        s.toSystem.wellFormed = true ∧ s.agenda = [.service] ∧ eligible s.toSystem = some (.done 0x0ABC)) := by decide

theorem test_witness_PlacedWordRunsNext :
    s0.toSystem.wellFormed = true ∧ decodeTableWord 32 0x7000FFFF = some (.done 0xFFFF) := by decide

theorem test_witness_FreeChoiceNeverStops : s0.toSystem.wellFormed = true ∧ s0.agenda = [] := by decide

theorem test_witness_IllFormedStatesAreDeclined :
    System.wellFormed { s0.toSystem with acken := false } = false := by decide

/-- A state of the invariant whose step answers a next state: the master addresses the core. -/
theorem test_witness_EveryStepKeepsTheInvariant :
    ({ s0 with agenda := [.code (.busAddressByte 0xA1)] } : State).toSystem.inv = true
      ∧ ∃ t, step { s0 with agenda := [.code (.busAddressByte 0xA1)] } = .next t :=
  ⟨by decide, exists_next (by decide)⟩

/-- While byte 0 of 0x0ABC waits for the master, a superseded conversion ends: the result stays. -/
theorem test_witness_ResultKeptWhileRead :
    (∀ s ∈ [{ reading 0xBC with res := 0x0ABC, cur := .one, conv := ⟨.eoc, 0x03, 0x0123⟩, agenda := [.service] }],
        s.toSystem.inv = true ∧ (∃ t, step s = .next t) ∧ s.phase.isRead = true ∧ s.cur ≠ .notReady
          ∧ (nextOf (step s)).map (fun t => (t.phase.isRead, t.res)) = some (true, 0x0ABC)) := by
  intro s hs
  rw [List.mem_singleton] at hs
  subst hs
  exact ⟨by decide, exists_next (by decide), by decide, by decide, by decide⟩

/-- Both bytes of 0x0ABC. -/
theorem test_witness_DeliveredByteIsOfTheResult :
    ((∃ t, takeMove (.rd .ack) { reading 0xBC with res := 0x0ABC, cur := .one } = .next t)
        ∧ System.inv { (reading 0xBC).toSystem with res := 0x0ABC, cur := .one } = true)
      ∧ (∃ t, takeMove (.rd .nack) { reading 0x0A with res := 0x0ABC, cur := .done } = .next t)
        ∧ System.inv { (reading 0x0A).toSystem with res := 0x0ABC, cur := .done } = true :=
  ⟨⟨exists_next (by decide), by decide⟩, exists_next (by decide), by decide⟩

theorem test_witness_EligibleServiceCompletes : eligible finished.toSystem = some (.done 0x0ABC) := by decide

/-- Every rank of the arbiter is met. -/
theorem test_witness_ArbiterOrder :
    finished.conv.st = .eoc ∧ failed.conv.st = .err ∧ (s0.conv.st ≠ .eoc ∧ s0.conv.st ≠ .err ∧ s0.pend = 0)
      ∧ (held 0x200000FF).pend = 0x200000#24 ++ 0xFF#8 ∧ stopped.phase = .stopped := by decide

theorem test_witness_CompletionOutranksTheBus :
    finished.conv.st = .eoc ∧ failed.conv.st = .err ∧ (∃ t, exec (.done 0x0ABC) finished = .next t)
      ∧ ∃ t, exec .fail failed = .next t :=
  ⟨by decide, by decide, exists_next (by decide), exists_next (by decide)⟩

theorem test_witness_AccessMatrixIsKept :
    (∃ t, exec .nack (held 0x50000000) = .next t) ∧ Register.phase ∉ rowWrites .nack :=
  ⟨exists_next (by decide), by decide⟩

theorem test_witness_PhaseAfterService :
    (∃ t, exec .stop (held 0x40000000) = .next t) ∧ phaseAfter .stop = some .stopped
      ∧ (∃ t, exec .nack (held 0x50000000) = .next t) ∧ phaseAfter .nack = none :=
  ⟨exists_next (by decide), by decide, exists_next (by decide), by decide⟩

theorem test_witness_EventsOfEachPhase :
    ∀ s ∈ [{ writing with pend := 0x20000003 }], s.toSystem.inv = true ∧ eligible s.toSystem = some (.rx 0x03) := by decide

theorem test_witness_OldSelectorDecidesNothing :
    (∃ t, exec (.rx 0x03) (held 0x20000003) = .next t) ∧ (∃ t, exec .reset s0 = .next t) ∧ ∃ t, exec .rearm stopped = .next t :=
  ⟨exists_next (by decide), exists_next (by decide), exists_next (by decide)⟩

theorem test_witness_OneBusConditionAtATime :
    (held 0x20000003).pend ≠ 0 ∧ ∃ t, takeMove .service (held 0x20000003) = .next t :=
  ⟨by decide, exists_next (by decide)⟩

/-- A stretched read, ended by a stop, by an address phase and by reset. -/
theorem test_witness_OnlyTheMasterEndsAStretch :
    ∀ s ∈ [{ s0 with phase := .transmitting, addressed := true, cur := .done }],
      stretched s.toSystem = true ∧ (∃ t, takeMove .stop s = .next t) ∧ (∃ t, takeMove (moveAddr 0x50 .r) s = .next t)
        ∧ ∃ t, takeMove (.code (.event32 0xA0000000)) s = .next t := by
  intro s hs
  rw [List.mem_singleton] at hs
  subst hs
  exact ⟨by decide, exists_next (by decide), exists_next (by decide), exists_next (by decide)⟩

/-- The transactions start at rest; both kinds of selector are met. -/
theorem test_witness_WriteTransaction :
    (s0.pend = 0 ∧ s0.acken = true ∧ s0.conv.st ≠ .eoc ∧ s0.conv.st ≠ .err) ∧ (0x06#8).toNat ≤ 6 ∧ 7 ≤ (0x07#8).toNat := by
  decide

theorem test_witness_ReadTransaction :
    s0.pend = 0 ∧ s0.acken = true ∧ s0.conv.st ≠ .eoc ∧ s0.conv.st ≠ .err ∧ s0.cur ≠ .notReady := by decide

theorem test_witness_SelectThenReadTransaction :
    s0.pend = 0 ∧ s0.acken = true ∧ s0.conv.st ≠ .eoc ∧ s0.conv.st ≠ .err ∧ (0x06#8).toNat ≤ 6 := by decide

theorem test_witness_ThirdByteIsNeverSupplied :
    ∀ s ∈ [{ reading 0x0A with res := 0x0ABC, cur := .done }],
      s.pend = 0 ∧ s.addressed = true ∧ (s.phase = .addrR ∨ s.phase = .transmitting) ∧ s.stg.full = true
        ∧ s.mnack = false ∧ s.cur = .done ∧ s.conv.st = .idle := by decide

theorem test_witness_ProbeChangesNoRegister :
    awaiting.pend = 0 ∧ awaiting.acken = true ∧ awaiting.conv.st ≠ .eoc ∧ awaiting.conv.st ≠ .err := by decide

theorem test_witness_NackedAttemptLeavesTheCore : stopped.pend = 0 ∧ stopped.acken = false := by decide

theorem test_witness_SupersededResultIsDiscarded :
    ∀ s ∈ [{ awaiting with cur := .zero, sel := 0x09 }], s.conv.st = .busy ∧ s.cur ≠ .notReady := by decide

theorem test_witness_HazardsOfOtherParameters :
    twoChannels.captureAfterInvalid = true ∧ twoChannels.rewindOnRead = false
      ∧ (sendNext (System.reset twoChannels.n)).cur = .one
      ∧ (sendNext (sendNext (System.reset twoChannels.n))).cur = .done := by decide

/-- The eligible word, reset where nothing is eligible, and a word that is not eligible. -/
theorem test_witness_WordAcceptedWhereEligible :
    (decodeEvent 0x70000ABC = some (.done 0x0ABC) ∧ eligible finished.toSystem = some (.done 0x0ABC))
      ∧ (decodeEvent 0xA0000000 = some .reset ∧ eligible s0.toSystem = none)
      ∧ (decodeEvent 0x70000ABD = some (.done 0x0ABD)
        ∧ ¬(Instr.done 0x0ABD = .reset ∨ eligible finished.toSystem = some (.done 0x0ABD))) := by decide

theorem next_of_nextOf {α : Type} {o : Host.Outcome α Fault Refusal} {t : α} (h : nextOf o = some t) : o = .next t := by
  cases o with
  | next u => cases h; rfl
  | fault r => cases h
  | refused r => cases h

/-- The state after the completion of `finished` has been serviced. -/
def captured : State :=
  { finished with res := 0x0ABC, cur := .one, stg := ⟨true, 0xBC⟩, conv := ⟨.idle, 0x03, 0x0ABC⟩ }

/-- The moves of a conversion that finishes and is captured. -/
def captureMoves : List Move := [.finish 0x0ABC, .service]

theorem takeMoves_captureMoves : takeMoves captureMoves awaiting = .next captured := next_of_nextOf (by decide)

theorem test_witness_TraceReplays : takeMoves captureMoves awaiting = .next captured := takeMoves_captureMoves

/-- A step that takes a service from the agenda, and one that finds the free choice with nothing eligible. -/
theorem test_witness_RecordedMoveIsTaken :
    (∃ t, step { finished with agenda := [.service] } = .next t)
      ∧ stepMove { finished with agenda := [.service] } = some .service :=
  ⟨exists_next (by decide), by decide⟩

/-- The waiting step: an empty agenda, nothing eligible, and whatever the free value is, a next state. -/
theorem test_witness_RecordedMoveIsTaken_free : ∃ t, step s0 = .next t := by
  have hw : s0.toSystem.wellFormed = true := by decide
  have he : eligible (countDraw s0).toSystem = none := by decide
  simp only [step, guardedStep, hw, if_true, nextStep, show s0.agenda = [] from rfl, chosenStep, waitStep, he]
  split <;> exact ⟨_, rfl⟩

/-- P1-A, steps 8 and 9: the completion is recorded, the converter's step is not. -/
theorem test_trace_capture : traceOf captureMoves awaiting = [0x70000ABC] := by decide
theorem test_trace_step :
    stepTrace 1 { finished with agenda := [.service] } = [0x70000ABC]
      ∧ stepTrace 1 { s0 with agenda := [moveAddr 0x50 .w] } = [] := by decide

/-! The run of the witness of AwaitedResultArrives: the conversion finishes, the core takes the completion, and then nothing
more happens. -/

theorem captureRun_fair : Fair (fun k => captureMoves[k]?) (runFrom captureMoves awaiting) :=
  fair_of_rest (n := 2) (t := captured) (fun _ hk => runFrom_of_length_le takeMoves_captureMoves hk) (by decide) (by decide)

theorem test_witness_AwaitedResultArrives :
    IsRun (fun k => captureMoves[k]?) (runFrom captureMoves awaiting)
      ∧ Fair (fun k => captureMoves[k]?) (runFrom captureMoves awaiting)
      ∧ (runFrom captureMoves awaiting 0).toSystem.inv = true ∧ (runFrom captureMoves awaiting 0).cur = .notReady :=
  ⟨isRun_runFrom takeMoves_captureMoves, captureRun_fair, by decide, by decide⟩

/-- The master stops for good with a byte staged, and in a stretched read. -/
theorem test_witness_MasterMayStopAtAnyPoint :
    (takeMoves [] (reading 0xBC) = .next (reading 0xBC) ∧ eligible (reading 0xBC).toSystem = none
        ∧ (reading 0xBC).conv.st ≠ .busy)
      ∧ (∀ s ∈ [{ s0 with phase := .transmitting, addressed := true, cur := .done }],
        stretched s.toSystem = true ∧ takeMoves [] s = .next s ∧ eligible s.toSystem = none ∧ s.conv.st ≠ .busy) := by
  refine ⟨⟨rfl, by decide, by decide⟩, ?_⟩
  intro s hs
  rw [List.mem_singleton] at hs
  subst hs
  exact ⟨by decide, rfl, by decide, by decide⟩

end Sys2Proof.Tests
end

/-! ### Proofs of the scope: the check of the configuration at boot -/

section

namespace Sys2Proof

/-- The Boolean check of a configuration says what R11, R12 and R219 ask of it. -/
theorem Config.wellFormed_iff (c : Config) :
    c.wellFormed = true ↔ (1 ≤ c.n ∧ c.n ≤ 256) ∧ c.channelMap.length = c.n ∧ c.channelMap.Nodup := by
  simp only [Config.wellFormed, Bool.and_eq_true, decide_eq_true_eq, beq_iff_eq, and_assoc]

end Sys2Proof

namespace Sys2Proof.Machine

theorem boot_of_wellFormed {c : Config} (h : c.wellFormed = true) : boot c = .next (System.reset c.n) :=
  if_pos h

theorem boot_of_not_wellFormed {c : Config} (h : ¬c.wellFormed = true) : boot c = .refused .badConfig :=
  if_neg h

/-- Settles O22: boot branches on the Boolean check, which holds exactly of the configurations the spec defines. -/
theorem bootChecksTheConfiguration : Obligations.BootChecksTheConfiguration := by
  intro c
  rw [← c.wellFormed_iff]
  exact ⟨boot_of_wellFormed, boot_of_not_wellFormed⟩

end Sys2Proof.Machine
end

/-! ### Proofs of the state family: the invariant of every reachable state -/

section

namespace Sys2Proof.Machine

variable {n : Nat} {s : System n}

/-! ### What the named parts of the invariant say (R38, R39) -/

theorem channelWellFormed_iff :
    channelWellFormed s = true ↔ (s.conv.st = .busy ∨ s.conv.st = .eoc → validSelector n s.conv.ch = true) := by
  cases h : s.conv.st <;> simp [channelWellFormed, h]

theorem inv1_iff : inv1 s = true ↔ (s.acken = true ↔ s.phase ≠ .stopped) := by
  cases h : s.acken <;> simp [inv1, h]

theorem inv2_iff :
    inv2 s = true
      ↔ (s.cur = .notReady → s.conv.st ≠ .idle ∧ s.conv.ch = s.sel ∧ validSelector n s.sel = true
          ∧ s.chen = onehot n s.sel.toNat) := by
  cases h : s.cur <;> simp [inv2, h, and_assoc]

theorem inv4_iff :
    inv4 s = true
      ↔ (s.stg.full = true → s.phase.isRead = true →
          s.cur = .one ∧ s.stg.data = loByte s.res ∨ s.cur = .done ∧ s.stg.data = hiByte s.res) := by
  cases hf : s.stg.full <;> cases hr : s.phase.isRead <;> simp [inv4, hf, hr]

/-- PEND against PHASE and ADDRESSED (R28, R109, R172-R176): a case for every condition that PEND can hold. -/
inductive BusFits (pend : EventWord) (phase : Phase) (addressed : Bool) : Prop where
  | none (hp : pend = pendNone) (h : addressed = true → phase.isAddressed = true)
  | addressMatch (d : Dir) (hp : pend = amWord d) (h : phase ≠ .stopped)
  | data (b : Byte) (hp : pend = rxWord b) (h : phase.isWrite = true)
  | overrun (hp : pend = ovrWord) (h : phase.isWrite = true)
  | nack (hp : pend = nackWord) (h : phase.isRead = true)
  | stop (hp : pend = stopWord) (ha : addressed = false) (h : phase.isAddressed = true)

theorem isAddressed_of_isWrite {p : Phase} (h : p.isWrite = true) : p.isAddressed = true := by
  simp [Phase.isAddressed, h]

theorem isAddressed_of_isRead {p : Phase} (h : p.isRead = true) : p.isAddressed = true := by
  simp [Phase.isAddressed, h]

theorem ne_stopped_of_isAddressed {p : Phase} (h : p.isAddressed = true) : p ≠ .stopped := by
  rintro rfl
  cases h

/-- The three checks of the model on PEND, PHASE and ADDRESSED are the cases of `BusFits`. -/
theorem busFits_iff :
    BusFits s.pend s.phase s.addressed ↔ pendWellFormed s = true ∧ heldFits s = true ∧ addressedFits s = true := by
  constructor
  · rintro (⟨hp, h⟩ | ⟨d, hp, h⟩ | ⟨b, hp, h⟩ | ⟨hp, h⟩ | ⟨hp, h⟩ | ⟨hp, ha, h⟩)
    case none => cases ha : s.addressed <;> simp_all [pendWellFormed, heldFits, addressedFits]
    case addressMatch => cases d <;> simp [pendWellFormed, heldFits, addressedFits, matchHeld, hp, h]
    case stop => simp [pendWellFormed, heldFits, addressedFits, hp, ha, h]
    case nack => simp [pendWellFormed, heldFits, addressedFits, hp, h, isAddressed_of_isRead]
    all_goals simp [pendWellFormed, heldFits, addressedFits, hp, h, isAddressed_of_isWrite]
  · rintro ⟨hw, hf, ha⟩
    rcases hh : heldEvent s.pend with _ | i
    · have hp : s.pend = pendNone := by simpa [pendWellFormed, hh] using hw
      refine .none hp fun had => ?_
      simpa [addressedFits, matchHeld, hp, had] using ha
    · rcases heldEvent_cases hh with ⟨rfl, hp⟩ | ⟨rfl, hp⟩ | ⟨b, rfl, hp⟩ | ⟨rfl, hp⟩ | ⟨rfl, hp⟩ | ⟨rfl, hp⟩
      · exact .addressMatch .w hp (by simpa [heldFits, hh] using hf)
      · exact .addressMatch .r hp (by simpa [heldFits, hh] using hf)
      · exact .data b hp (by simpa [heldFits, hh] using hf)
      · obtain ⟨hna, h⟩ : s.addressed = false ∧ s.phase.isAddressed = true := by simpa [heldFits, hh] using hf
        exact .stop hp hna h
      · exact .nack hp (by simpa [heldFits, hh] using hf)
      · exact .overrun hp (by simpa [heldFits, hh] using hf)

/-- An address match that waits was not raised in STOPPED. -/
theorem BusFits.not_stopped (hb : BusFits s.pend s.phase s.addressed) {d : Dir} (hp : s.pend = amWord d) :
    s.phase ≠ .stopped := by
  obtain ⟨-, hf, -⟩ := busFits_iff.mp hb
  cases d <;> simpa [heldFits, hp] using hf

/-- A stop that waits has ended the core's transaction. -/
theorem BusFits.not_addressed (hb : BusFits s.pend s.phase s.addressed) (hp : s.pend = stopWord) : s.addressed = false := by
  obtain ⟨-, hf, -⟩ := busFits_iff.mp hb
  simp only [heldFits, hp, heldEvent_stopWord, Bool.and_eq_true, Bool.not_eq_true'] at hf
  exact hf.1

/-- A data byte waits in a write phase. -/
theorem BusFits.isWrite (hb : BusFits s.pend s.phase s.addressed) {b : Byte} (hp : s.pend = rxWord b) :
    s.phase.isWrite = true := by
  obtain ⟨-, hf, -⟩ := busFits_iff.mp hb
  simpa [heldFits, hp] using hf

/-- Unless an address match waits, an addressed core is in an addressed phase. -/
theorem BusFits.isAddressed (hb : BusFits s.pend s.phase s.addressed) (hm : matchHeld s = false) (ha : s.addressed = true) :
    s.phase.isAddressed = true := by
  obtain ⟨-, -, hf⟩ := busFits_iff.mp hb
  simpa [addressedFits, hm, ha] using hf

/-- The invariant of every reachable state, part by part. -/
structure Invariant (s : System n) : Prop where
  /-- R25: no reserved code. -/
  notReserved : s.phase.isReserved = false
  /-- INV1. -/
  acken : s.acken = true ↔ s.phase ≠ .stopped
  /-- R39: a logical channel is in flight or finished. -/
  channel : s.conv.st = .busy ∨ s.conv.st = .eoc → validSelector n s.conv.ch = true
  /-- INV2. -/
  awaited : s.cur = .notReady →
    s.conv.st ≠ .idle ∧ s.conv.ch = s.sel ∧ validSelector n s.sel = true ∧ s.chen = onehot n s.sel.toNat
  /-- INV4. -/
  staged : s.stg.full = true → s.phase.isRead = true →
    s.cur = .one ∧ s.stg.data = loByte s.res ∨ s.cur = .done ∧ s.stg.data = hiByte s.res
  /-- The held condition and ADDRESSED fit the phase. -/
  bus : BusFits s.pend s.phase s.addressed

theorem System.inv_iff : s.inv = true ↔ Invariant s := by
  simp only [System.inv, System.wellFormed, Bool.and_eq_true, Bool.not_eq_true', channelWellFormed_iff, inv1_iff, inv2_iff,
    inv4_iff]
  constructor
  · rintro ⟨⟨⟨⟨⟨⟨⟨h1, h2⟩, h3⟩, h4⟩, h5⟩, h6⟩, h7⟩, h8⟩
    exact ⟨h1, h4, h2, h5, h6, busFits_iff.mpr ⟨h3, h7, h8⟩⟩
  · rintro ⟨h1, h4, h2, h5, h6, hb⟩
    obtain ⟨h3, h7, h8⟩ := busFits_iff.mp hb
    exact ⟨⟨⟨⟨⟨⟨⟨h1, h2⟩, h3⟩, h4⟩, h5⟩, h6⟩, h7⟩, h8⟩

/-! ### Reset -/

theorem invariant_reset (n : Nat) : Invariant (System.reset n) where
  notReserved := rfl
  acken := by simp
  channel := by simp
  awaited := by simp
  staged := by simp
  bus := .none rfl (by simp)

/-! ### Bus-side services -/

theorem Invariant.amW (h : Invariant s) (he : eligible s = some .amW) : Invariant (amWEffect s) :=
  have hs := h.bus.not_stopped (eligible_amW.mp he).2
  { h with
    notReserved := rfl
    acken := by simp [amWEffect, h.acken, hs]
    staged := nofun
    bus := .none rfl fun _ => rfl }

/-- R102: a rewind writes CUR, nothing else. -/
theorem rewind_eq (c : Config) (s : System n) : rewind c s = { s with cur := (rewind c s).cur } := by
  unfold rewind
  split <;> rfl

/-- A rewind never makes a ready result an awaited one. -/
theorem cur_of_rewind_notReady {c : Config} (h : (rewind c s).cur = .notReady) : s.cur = .notReady := by
  unfold rewind at h
  split at h
  · cases h
  · exact h

theorem Invariant.amR {c : Config} (h : Invariant s) (he : eligible s = some .amR) : Invariant (amREffect c s) := by
  have hs := h.bus.not_stopped (eligible_amR.mp he).2
  rw [amREffect, rewind_eq]
  exact { h with
    notReserved := rfl
    acken := by simp [h.acken, hs]
    awaited := fun hc => h.awaited (cur_of_rewind_notReady (s := flush (clearCondition s)) hc)
    staged := nofun
    bus := .none rfl fun _ => rfl }

/-- R103: a valid selection makes its own channel the one in flight and enabled; an invalid one has its result at once. -/
theorem Invariant.rx {b : Byte} (h : Invariant s) (he : eligible s = some (.rx b)) : Invariant (rxEffect b s) := by
  have hs := ne_stopped_of_isAddressed (isAddressed_of_isWrite (h.bus.isWrite (eligible_rx.mp he).2))
  have hack : s.acken = true ↔ Phase.receiving ≠ .stopped := by simp [h.acken, hs]
  unfold rxEffect
  split
  case isTrue hv =>
    exact {
      notReserved := rfl
      acken := hack
      channel := fun _ => hv
      awaited := fun _ => ⟨nofun, rfl, hv, rfl⟩
      staged := nofun
      bus := .none rfl fun _ => rfl }
  case isFalse =>
    exact { h with
      notReserved := rfl
      acken := hack
      awaited := nofun
      staged := nofun
      bus := .none rfl fun _ => rfl }

/-- R104: a push writes STG and CUR, nothing else. -/
theorem sendNext_eq (s : System n) :
    sendNext s = { s with stg := (sendNext s).stg, cur := (sendNext s).cur } := by
  unfold sendNext
  split <;> rfl

theorem cur_of_sendNext_notReady (h : (sendNext s).cur = .notReady) : s.cur = .notReady := by
  cases hc : s.cur
  case notReady => rfl
  case zero => simp [sendNext_zero hc] at h
  case one => simp [sendNext_one hc] at h
  case done => simp [sendNext_done hc, hc] at h

/-- A byte staged by a push is the one that the cursor has just passed. -/
theorem staged_sendNext (he : s.stg.full = false) (hf : (sendNext s).stg.full = true) :
    (sendNext s).cur = .one ∧ (sendNext s).stg.data = loByte s.res
      ∨ (sendNext s).cur = .done ∧ (sendNext s).stg.data = hiByte s.res := by
  cases hc : s.cur
  case zero => simp [sendNext_zero hc]
  case one => simp [sendNext_one hc]
  case done => simp [sendNext_done hc, he] at hf
  case notReady => simp [sendNext_notReady hc, he] at hf

/-- R104: a push into an empty STG. -/
theorem Invariant.sendNext (h : Invariant s) (he : s.stg.full = false) : Invariant (sendNext s) := by
  rw [sendNext_eq]
  exact { h with
    awaited := fun hc => h.awaited (cur_of_sendNext_notReady hc)
    staged := fun hf _ => staged_sendNext he hf }

theorem Invariant.txr (h : Invariant s) (he : eligible s = some .txr) : Invariant (txrEffect s) := by
  obtain ⟨hp, hr, hfull, -⟩ := readyToTransmit_iff.mp (eligible_txr.mp he).2
  have hs := ne_stopped_of_isAddressed (isAddressed_of_isRead ((isRead_iff _).mpr hr))
  have hreq : Invariant { s with txreq := false, phase := .transmitting } :=
    { h with
      notReserved := rfl
      acken := by simp [h.acken, hs]
      staged := fun hf => absurd hf (by simp [hfull])
      bus := .none hp fun _ => rfl }
  exact hreq.sendNext hfull

theorem Invariant.stop (h : Invariant s) (he : eligible s = some .stop) : Invariant (stopEffect s) :=
  have hna := h.bus.not_addressed (eligible_stop.mp he).2
  { h with
    notReserved := rfl
    acken := by simp [stopEffect]
    staged := nofun
    bus := .none rfl fun ha => absurd ha (by simp [stopEffect, hna]) }

/-- R106, R107: a condition that is no address match is cleared, and nothing else changes. -/
theorem Invariant.clearCondition (h : Invariant s) (hm : matchHeld s = false) : Invariant (clearCondition s) :=
  { h with bus := .none rfl (h.bus.isAddressed hm) }

theorem Invariant.nack (h : Invariant s) (he : eligible s = some .nack) : Invariant (nackEffect s) :=
  h.clearCondition (by simp [matchHeld, (eligible_nack.mp he).2])

theorem Invariant.ovr (h : Invariant s) (he : eligible s = some .ovr) : Invariant (ovrEffect s) :=
  h.clearCondition (by simp [matchHeld, (eligible_ovr.mp he).2])

/-- With no condition outstanding, an addressed core is in an addressed phase. -/
theorem Invariant.isAddressed (h : Invariant s) (hp : s.pend = pendNone) (ha : s.addressed = true) :
    s.phase.isAddressed = true :=
  h.bus.isAddressed (by simp [matchHeld, hp]) ha

theorem Invariant.rearm (h : Invariant s) (he : eligible s = some .rearm) : Invariant (rearmEffect s) :=
  have ⟨_, hp, hs⟩ := eligible_rearm.mp he
  { h with
    notReserved := rfl
    acken := by simp [rearmEffect]
    staged := nofun
    bus := .none hp fun ha => absurd hs (ne_stopped_of_isAddressed (h.isAddressed hp ha)) }

/-! ### Conversion side -/

/-- R144: a captured value is ready with its low byte staged; with the gate closed no result was awaited. -/
theorem Invariant.endConversion (c : Config) (v : Half) (h : Invariant s) : Invariant (endConversion c v s) := by
  cases hg : captureOk c s
  case true =>
    rw [endConversion_open v hg]
    exact { h with channel := by simp, awaited := nofun, staged := fun _ _ => .inl ⟨rfl, rfl⟩ }
  case false =>
    have hc : s.cur ≠ .notReady := by simp_all [captureOk]
    rw [endConversion_closed v hg]
    exact { h with channel := by simp, awaited := fun hn => absurd hn hc }

/-- R177, R178: a conversion in flight ends; its channel is the one that was in flight. -/
theorem Invariant.endFlight {x : ConvStatus} {v : Half} (h : Invariant s) (hb : s.conv.st = .busy) (hx : x ≠ .idle) :
    Invariant { s with conv := ⟨x, s.conv.ch, v⟩ } :=
  { h with
    channel := fun _ => h.channel (.inl hb)
    awaited := fun hc => ⟨hx, (h.awaited hc).2⟩ }

/-! ### The bus engine (R172-R176) -/

/-- R172: only a core that acknowledges is addressed, and it is not in STOPPED (INV1). -/
theorem Invariant.addr (c : Config) (a : BusAddr) (d : Dir) (h : Invariant s) (hb : busFree s = true) :
    Invariant (mAddrEffect c a d s) := by
  unfold mAddrEffect
  split
  case isTrue hk =>
    have hack : s.acken = true := by simp_all [addressAcked]
    exact { h with bus := .addressMatch d rfl (h.acken.mp hack) }
  case isFalse => exact { h with bus := .none (busFree_iff.mp hb) nofun }

theorem Invariant.wr (b : Byte) (h : Invariant s) (hw : writeEnabled s = true) : Invariant (mWrEffect b s) :=
  have ⟨_, _, hp⟩ := writeEnabled_iff.mp hw
  { h with bus := .data b rfl ((isWrite_iff _).mpr hp) }

theorem Invariant.lose (h : Invariant s) (hw : writeEnabled s = true) : Invariant (mLoseEffect s) :=
  have ⟨_, _, hp⟩ := writeEnabled_iff.mp hw
  { h with bus := .overrun rfl ((isWrite_iff _).mpr hp) }

theorem Invariant.rd (a : Ack) (h : Invariant s) (hr : readEnabled s = true) : Invariant (mRdEffect a s) :=
  have ⟨hp, _, hread, _⟩ := readEnabled_iff.mp hr
  match a with
  | .ack => { h with staged := nofun, bus := .none hp (h.isAddressed hp) }
  | .nack => { h with staged := nofun, bus := .nack rfl ((isRead_iff _).mpr hread) }

theorem Invariant.masterStop (h : Invariant s) (hb : busFree s = true) : Invariant (mStopEffect s) := by
  unfold mStopEffect
  split
  case isTrue ha => exact { h with bus := .stop rfl rfl (h.isAddressed (busFree_iff.mp hb) ha) }
  case isFalse => exact h

/-! ### Every step -/

/-- R38, R39, for every configuration. -/
theorem SystemStep.invariant {c : Config} {s t : System c.n} (hst : SystemStep c s t) (h : Invariant s) : Invariant t := by
  cases hst with
  | amW he => exact h.amW he
  | amR he => exact h.amR he
  | rx b he => exact h.rx he
  | txr he => exact h.txr he
  | stop he => exact h.stop he
  | nack he => exact h.nack he
  | ovr he => exact h.ovr he
  | done v he => exact h.endConversion c _
  | fail he => exact h.endConversion c _
  | rearm he => exact h.rearm he
  | reset => exact { invariant_reset c.n with bus := .none rfl nofun }
  | addr a d he => exact h.addr c a d he
  | wr b he => exact h.wr b he
  | lose he => exact h.lose he
  | rd a he => exact h.rd a he
  | masterStop he => exact h.masterStop he
  | finish v he => exact h.endFlight (beq_iff_eq.mp he) nofun
  | convFail he => exact h.endFlight (beq_iff_eq.mp (Bool.and_eq_true_iff.mp he).1) nofun

/-- Settles O34: a step waits or is one system step, and each system step keeps every part of the invariant. -/
theorem everyStepKeepsTheInvariant : Obligations.EveryStepKeepsTheInvariant := by
  intro s t hinv hstep
  obtain ⟨-, hsame | hmove⟩ := step_cases hstep
  · rwa [hsame]
  · exact System.inv_iff.mpr (hmove.invariant (System.inv_iff.mp hinv))

/-- Settles O35: every part of the invariant holds of the reset values. -/
theorem resetMeetsTheInvariant : Obligations.ResetMeetsTheInvariant :=
  fun n => System.inv_iff.mpr (invariant_reset n)

/-- Settles O21: the reset state is written with the values of R37 and R171. -/
theorem powerOnState : Obligations.PowerOnState := rfl

end Sys2Proof.Machine

end

/-! ### Proofs of the state family: what the machine refuses, what a read keeps -/

section

namespace Sys2Proof.Machine

variable {n : Nat}

/-! ### Refusals (R219) -/

theorem serve_ne_refused (i : Instr) (f : System n → System n) (s : System n) (r : Refusal) :
    serve i f s ≠ .refused r := by
  unfold serve
  split <;> nofun

theorem act_ne_refused (e : Bool) (f : System n → System n) (s : System n) (r : Refusal) : act e f s ≠ .refused r := by
  unfold act
  split <;> nofun

theorem readFrame_ne_refused (high : Bool) (d : Byte) (a : Ack) (s : System n) (r : Refusal) :
    readFrame high d a s ≠ .refused r := by
  unfold readFrame
  split
  · exact act_ne_refused _ _ _ _
  · nofun

/-- The state of this hardware is refused only where its system is. -/
theorem onSystem_ne_refused {f : System Config.esplant.n → Host.Outcome (System Config.esplant.n) Fault Refusal}
    {s : State} {r : Refusal} (h : f s.toSystem ≠ .refused r) : onSystem f s ≠ .refused r := by
  unfold onSystem
  split <;> simp_all

/-- No instruction is refused: it has its effect or is stuck. -/
theorem exec_ne_refused (i : Instr) (s : State) (r : Refusal) : exec i s ≠ .refused r := by
  cases i with
  | reset => nofun
  | busAddrW | busAddrR | busSel => exact onSystem_ne_refused (act_ne_refused _ _ _ _)
  | busResLo | busResHi => exact onSystem_ne_refused (readFrame_ne_refused _ _ _ _ _)
  | _ => exact onSystem_ne_refused (serve_ne_refused _ _ _ _)

/-- A code is refused only as an invalid encoding. -/
theorem takeCode_refused {c : Code} {s : State} {r : Refusal} (h : takeCode c s = .refused r) : r = .invalidEncoding := by
  unfold takeCode at h
  split at h
  · exact absurd h (exec_ne_refused _ _ _)
  · unfold takeUndecoded at h
    split at h
    · exact absurd h (onSystem_ne_refused (act_ne_refused _ _ _ _))
    all_goals cases h; rfl

/-- A move is refused only as an invalid encoding. -/
theorem takeMove_refused {m : Move} {s : State} {r : Refusal} (h : takeMove m s = .refused r) : r = .invalidEncoding := by
  cases m with
  | service =>
    simp only [takeMove, takeService] at h
    split at h
    · exact absurd h (exec_ne_refused _ _ _)
    · cases h
  | code c => exact takeCode_refused h
  | rd a => exact takeCode_refused h
  | lose | stop | finish | convFail => exact absurd h (onSystem_ne_refused (act_ne_refused _ _ _ _))

theorem waitStep_ne_refused (s : State) (r : Refusal) : waitStep s ≠ .refused r := by
  unfold waitStep
  split
  · exact exec_ne_refused _ _ _
  · nofun

theorem chosenStep_ne_refused (m : Move) (s : State) (r : Refusal) : chosenStep m s ≠ .refused r := by
  unfold chosenStep
  split
  · nofun
  all_goals exact waitStep_ne_refused _ _

/-- A step from a well-formed state is refused only for an invalid word of the agenda. -/
theorem step_refused_of_wellFormed {s : State} {r : Refusal} (hw : s.toSystem.wellFormed = true) (h : step s = .refused r) :
    r = .invalidEncoding := by
  rw [step, guardedStep, if_pos hw, nextStep] at h
  split at h
  · exact takeMove_refused h
  · exact absurd h (chosenStep_ne_refused _ _ _)

theorem step_of_illFormed {s : State} (hw : s.toSystem.wellFormed = false) : step s = .refused .illFormedState := by
  rw [step, guardedStep, if_neg (by simp [hw])]

theorem System.wellFormed_of_inv {s : System n} (h : s.inv = true) : s.wellFormed = true := by
  simp only [System.inv, Bool.and_eq_true] at h
  obtain ⟨⟨⟨hw, -⟩, -⟩, -⟩ := h
  exact hw

/-- Settles O33: the state that a step reaches keeps the invariant, so it is well formed and not refused as ill formed. -/
theorem illFormedStatesAreDeclined : Obligations.IllFormedStatesAreDeclined := by
  refine ⟨fun s => step_of_illFormed, fun s t hinv hstep href => ?_⟩
  have ht : t.toSystem.inv = true := everyStepKeepsTheInvariant s t hinv hstep
  have : Refusal.illFormedState = .invalidEncoding := step_refused_of_wellFormed (System.wellFormed_of_inv ht) href
  cases this

/-! ### INV5 (R38) -/

/-- With the gate shut after an invalid selection, a conversion that ends leaves a ready result (R144). -/
theorem endConversion_res_of_ready {c : Config} {s : System n} (v : Half) (hg : c.captureAfterInvalid = false)
    (hc : s.cur ≠ .notReady) : (endConversion c v s).res = s.res := by
  rw [endConversion_closed v (by simp [captureOk, hg, hc])]

/-- R38 INV5, for every configuration with CAPTURE_AFTER_INVALID false: of the steps that write RES, a selection and reset
leave the read phases, and a conversion that ends is not captured while a result is ready. -/
theorem SystemStep.resultKept {c : Config} {s t : System c.n} (hst : SystemStep c s t)
    (hg : c.captureAfterInvalid = false) : resultKept s t := by
  intro _ hread hc
  cases hst with
  | amR => rw [amREffect, rewind_eq]; rfl
  | rx b => unfold rxEffect at hread; split at hread <;> cases hread
  | txr => rw [txrEffect, sendNext_eq]
  | done v => exact endConversion_res_of_ready _ hg hc
  | fail => exact endConversion_res_of_ready _ hg hc
  | reset => cases hread
  | addr a d => unfold mAddrEffect; split <;> rfl
  | rd a => cases a <;> rfl
  | masterStop => unfold mStopEffect; split <;> rfl
  | _ => rfl

/-- Settles O36: a step waits or is one system step of this hardware. -/
theorem resultKeptWhileRead : Obligations.ResultKeptWhileRead := by
  intro s t _ hstep
  obtain ⟨-, hsame | hmove⟩ := step_cases hstep
  · rw [hsame]
    exact fun _ _ _ => rfl
  · exact hmove.resultKept rfl

end Sys2Proof.Machine

end

/-! ### Proofs of the state family: what an instruction writes, what it reads -/

section

namespace Sys2Proof.Machine

variable {n : Nat}

/-! ### One equation for exec -/

/-- Where the instruction answers a next state: an event where it is the eligible service (reset everywhere), a frame where
its environment step is enabled and, for a read frame, shows the staged byte at its place. -/
def instrAccepted (i : Instr) (s : System n) : Prop :=
  match i with
  | .reset => True
  | .busAddrW | .busAddrR => busFree s = true
  | .busSel _ => writeEnabled s = true
  | .busResLo d _ => stagedIsHigh s = false ∧ s.stg.data = d ∧ readEnabled s = true
  | .busResHi d _ => stagedIsHigh s = true ∧ s.stg.data = d ∧ readEnabled s = true
  | .amW | .amR | .rx _ | .txr | .stop | .nack | .ovr | .done _ | .fail | .rearm => eligible s = some i

/-- What the instruction does to the system where it is accepted. -/
def instrEffect (c : Config) (i : Instr) (s : System n) : System n :=
  match i with
  | .amW => amWEffect s
  | .amR => amREffect c s
  | .rx b => rxEffect b s
  | .txr => txrEffect s
  | .stop => stopEffect s
  | .nack => nackEffect s
  | .ovr => ovrEffect s
  | .done _ => doneEffect c s
  | .fail => failEffect c s
  | .rearm => rearmEffect s
  | .reset => resetEffect s
  | .busAddrW => mAddrEffect c c.ownAddr .w s
  | .busAddrR => mAddrEffect c c.ownAddr .r s
  | .busSel b => mWrEffect b s
  | .busResLo _ a | .busResHi _ a => mRdEffect a s

theorem onSystem_serve_next {i : Instr} {f : System Config.esplant.n → System Config.esplant.n} {s t : State} :
    onSystem (serve i f) s = .next t
      ↔ eligible s.toSystem = some i ∧ t = { s with toSystem := f s.toSystem } := by
  simp [onSystem_next, serve_next, and_assoc]

theorem onSystem_act_next {e : System Config.esplant.n → Bool} {f : System Config.esplant.n → System Config.esplant.n}
    {s t : State} :
    onSystem (fun u => act (e u) f u) s = .next t
      ↔ e s.toSystem = true ∧ t = { s with toSystem := f s.toSystem } := by
  simp [onSystem_next, act_next, and_assoc]

theorem onSystem_readFrame_next {high : Bool} {d : Byte} {a : Ack} {s t : State} :
    onSystem (readFrame high d a) s = .next t
      ↔ (stagedIsHigh s.toSystem = high ∧ s.stg.data = d ∧ readEnabled s.toSystem = true)
        ∧ t = { s with toSystem := mRdEffect a s.toSystem } := by
  simp [onSystem_next, readFrame_next, and_assoc]

/-- An instruction answers a next state exactly where it is accepted, and then it has its effect. -/
theorem exec_next_iff {i : Instr} {s t : State} :
    exec i s = .next t
      ↔ instrAccepted i s.toSystem ∧ t = { s with toSystem := instrEffect Config.esplant i s.toSystem } := by
  cases i with
  | reset => simp [exec, execReset, onSystem, instrAccepted, instrEffect, eq_comm]
  | busAddrW | busAddrR | busSel => exact onSystem_act_next
  | busResLo | busResHi => exact onSystem_readFrame_next
  | _ => exact onSystem_serve_next

/-! ### The access matrix (R31) -/

/-- Every register outside `W` holds the same value in both states. -/
def SameOutside (W : List Register) (s t : System n) : Prop := ∀ r, r ∉ W → r.same s t

/-- Register by register. -/
theorem sameOutside_iff {W : List Register} {s t : System n} :
    SameOutside W s t
      ↔ (.sel ∉ W → t.sel = s.sel) ∧ (.res ∉ W → t.res = s.res) ∧ (.cur ∉ W → t.cur = s.cur)
        ∧ (.stg ∉ W → t.stg = s.stg) ∧ (.phase ∉ W → t.phase = s.phase) ∧ (.acken ∉ W → t.acken = s.acken)
        ∧ (.txreq ∉ W → t.txreq = s.txreq) ∧ (.chen ∉ W → t.chen = s.chen) ∧ (.pend ∉ W → t.pend = s.pend)
        ∧ (.conv ∉ W → t.conv = s.conv) ∧ (.addressed ∉ W → t.addressed = s.addressed)
        ∧ (.mnack ∉ W → t.mnack = s.mnack) ∧ (.mobs ∉ W → t.mobs = s.mobs) := by
  constructor
  · intro h
    exact ⟨h .sel, h .res, h .cur, h .stg, h .phase, h .acken, h .txreq, h .chen, h .pend, h .conv, h .addressed,
      h .mnack, h .mobs⟩
  · rintro ⟨h1, h2, h3, h4, h5, h6, h7, h8, h9, h10, h11, h12, h13⟩ r
    cases r <;> assumption

theorem sameOutside_endConversion (c : Config) (v : Half) (s : System n) :
    SameOutside [.res, .cur, .stg, .conv] s (endConversion c v s) := by
  cases hg : captureOk c s
  · simp [endConversion_closed v hg, sameOutside_iff]
  · simp [endConversion_open v hg, sameOutside_iff]

theorem sameOutside_rx (b : Byte) (s : System n) :
    SameOutside [.sel, .res, .cur, .phase, .chen, .pend, .conv] s (rxEffect b s) := by
  unfold rxEffect
  split
  · simp [sameOutside_iff, selectValid]
  · simp [sameOutside_iff, selectInvalid]

theorem sameOutside_mAddr (c : Config) (a : BusAddr) (d : Dir) (s : System n) :
    SameOutside [.pend, .addressed, .mnack, .mobs] s (mAddrEffect c a d s) := by
  unfold mAddrEffect
  split <;> simp [sameOutside_iff]

theorem sameOutside_mRd (a : Ack) (s : System n) : SameOutside [.stg, .txreq, .pend, .mnack, .mobs] s (mRdEffect a s) := by
  cases a <;> simp [sameOutside_iff, mRdEffect, answerByte]

/-- R31, R172, R173, R175, for every configuration: an instruction writes its row of the matrix at most. -/
theorem sameOutside_instrEffect (c : Config) (i : Instr) (s : System n) :
    SameOutside (rowWrites i) s (instrEffect c i s) := by
  cases i with
  | amW => simp [sameOutside_iff, rowWrites, instrEffect, amWEffect]
  | amR =>
    rw [instrEffect, amREffect, rewind_eq]
    simp [sameOutside_iff, rowWrites]
  | rx b => exact sameOutside_rx b s
  | txr =>
    rw [instrEffect, txrEffect, sendNext_eq]
    simp [sameOutside_iff, rowWrites]
  | stop => simp [sameOutside_iff, rowWrites, instrEffect, stopEffect]
  | nack => simp [sameOutside_iff, rowWrites, instrEffect, nackEffect]
  | ovr => simp [sameOutside_iff, rowWrites, instrEffect, ovrEffect]
  | done v => exact sameOutside_endConversion c _ s
  | fail => exact sameOutside_endConversion c _ s
  | rearm => simp [sameOutside_iff, rowWrites, instrEffect, rearmEffect]
  | reset => simp [sameOutside_iff, rowWrites, instrEffect, resetEffect]
  | busAddrW => exact sameOutside_mAddr c _ _ s
  | busAddrR => exact sameOutside_mAddr c _ _ s
  | busSel b => simp [sameOutside_iff, rowWrites, instrEffect, mWrEffect]
  | busResLo d a => exact sameOutside_mRd a s
  | busResHi d a => exact sameOutside_mRd a s

/-- Settles O41: a next state of exec is the effect of the instruction, which writes its row at most. -/
theorem accessMatrixIsKept : Obligations.AccessMatrixIsKept := by
  intro i s t r h hr
  obtain ⟨-, rfl⟩ := exec_next_iff.mp h
  exact ⟨sameOutside_instrEffect Config.esplant i s.toSystem r hr, rfl, rfl⟩

/-! ### The old selector (R21) -/

/-- The same system with another value of SEL. -/
def withSel (x : Byte) (s : System n) : System n := { s with sel := x }

/-- Whether an instruction is accepted does not depend on SEL. -/
theorem instrAccepted_withSel {i : Instr} {s : System n} (x : Byte) (h : instrAccepted i s) :
    instrAccepted i (withSel x s) := by
  cases i <;> exact h

theorem sendNext_withSel (x : Byte) (s : System n) : sendNext (withSel x s) = withSel x (sendNext s) := by
  cases hc : s.cur
  case zero => rw [sendNext_zero hc, sendNext_zero (s := withSel x s) hc]; rfl
  case one => rw [sendNext_one hc, sendNext_one (s := withSel x s) hc]; rfl
  case done => rw [sendNext_done hc, sendNext_done (s := withSel x s) hc]
  case notReady => rw [sendNext_notReady hc, sendNext_notReady (s := withSel x s) hc]

theorem rewind_withSel (c : Config) (x : Byte) (s : System n) : rewind c (withSel x s) = withSel x (rewind c s) := by
  unfold rewind
  rw [apply_ite (withSel x)]
  rfl

theorem endConversion_withSel (c : Config) (v : Half) (x : Byte) (s : System n) :
    endConversion c v (withSel x s) = withSel x (endConversion c v s) := by
  unfold endConversion
  rw [apply_ite (withSel x)]
  rfl

theorem mAddrEffect_withSel (c : Config) (a : BusAddr) (d : Dir) (x : Byte) (s : System n) :
    mAddrEffect c a d (withSel x s) = withSel x (mAddrEffect c a d s) := by
  unfold mAddrEffect
  rw [apply_ite (withSel x)]
  rfl

theorem mRdEffect_withSel (a : Ack) (x : Byte) (s : System n) : mRdEffect a (withSel x s) = withSel x (mRdEffect a s) := by
  cases a <;> rfl

theorem amREffect_withSel (c : Config) (x : Byte) (s : System n) :
    amREffect c (withSel x s) = withSel x (amREffect c s) := by
  have h := rewind_withSel c x (flush (clearCondition s))
  exact congrArg (fun u : System n => { u with phase := .addrR, txreq := true }) h

/-- The instructions whose row of the access matrix marks SEL. -/
theorem sel_mem_rowWrites (i : Instr) : .sel ∈ rowWrites i ↔ (∃ b, i = .rx b) ∨ i = .reset := by
  cases i <;> simp [rowWrites]

/-- An instruction that writes SEL does not read the one held before. -/
theorem instrEffect_withSel_of_mem (c : Config) {i : Instr} (x : Byte) (s : System n) (hi : .sel ∈ rowWrites i) :
    instrEffect c i (withSel x s) = instrEffect c i s := by
  obtain ⟨b, rfl⟩ | rfl := (sel_mem_rowWrites i).mp hi
  · rfl
  · rfl

/-- An instruction that does not write SEL does the same to every other register, whatever SEL holds. -/
theorem instrEffect_withSel_of_not_mem (c : Config) {i : Instr} (x : Byte) (s : System n) (hi : .sel ∉ rowWrites i) :
    instrEffect c i (withSel x s) = withSel x (instrEffect c i s) := by
  cases i with
  | rx | reset => simp [rowWrites] at hi
  | amR => exact amREffect_withSel c x s
  | txr => exact sendNext_withSel x { s with txreq := false, phase := .transmitting }
  | done v => exact endConversion_withSel c _ x s
  | fail => exact endConversion_withSel c _ x s
  | busAddrW | busAddrR => exact mAddrEffect_withSel c _ _ x s
  | busResLo d a | busResHi d a => exact mRdEffect_withSel a x s
  | amW | stop | nack | ovr | rearm | busSel => rfl

/-- Settles O44: another SEL is accepted alike, and the effect overwrites it or leaves it alone. -/
theorem oldSelectorDecidesNothing : Obligations.OldSelectorDecidesNothing := by
  intro i s t x h
  obtain ⟨hacc, rfl⟩ := exec_next_iff.mp h
  have hacc' : instrAccepted i (withSel x s.toSystem) := instrAccepted_withSel x hacc
  rw [← sel_mem_rowWrites]
  constructor
  · intro hi
    refine exec_next_iff.mpr ⟨hacc', ?_⟩
    rw [← instrEffect_withSel_of_mem _ x _ hi]
    rfl
  · intro hi
    refine exec_next_iff.mpr ⟨hacc', ?_⟩
    have := instrEffect_withSel_of_not_mem Config.esplant x s.toSystem hi
    exact congrArg (fun u => ({ s with toSystem := u } : State)) this.symm

end Sys2Proof.Machine

end

/-! ### Proofs of the encoding family: the decoder, the encoder, the opcode table (R80-R91) -/

section

namespace Sys2Proof

/-! ### Decoding and encoding are inverse (R85) -/

/-- Settles O2: each constructor, by what the decoder reads from its word or byte. -/
theorem decodeReadsBackEncode : Obligations.DecodeReadsBackEncode := by
  intro i
  cases i with
  | amW => exact decodeEvent_amWord_w
  | amR => exact decodeEvent_amWord_r
  | rx b => exact decodeEvent_rxWord b
  | txr => exact decodeEvent_txrWord
  | stop => exact decodeEvent_stopWord
  | nack => exact decodeEvent_nackWord
  | ovr => exact decodeEvent_ovrWord
  | done v => exact decodeEvent_doneWord v
  | fail => exact decodeEvent_failWord
  | rearm => exact decodeEvent_rearmWord
  | reset => exact decodeEvent_resetWord
  | busAddrW | busAddrR => simp [encode, decode, decodeAddressByte_addressByte]
  | busSel c => rfl
  | busResLo d a | busResHi d a => simp [encode, decode]

/-- R88: a decoded address byte is OWN_ADDR with the direction of the frame. -/
theorem encode_of_decodeAddressByte {b : Byte} {i : Instr} (h : decodeAddressByte b = some i) :
    encode i = .busAddressByte b := by
  unfold decodeAddressByte at h
  split at h
  case isFalse => cases h
  case isTrue ha =>
    have hb := addressByte_eta b
    rw [ha] at hb
    split at h
    case h_1 hd | h_2 hd => cases h; rw [encode, ← hd, hb]

/-- Settles O3: by the place of the code; only an event word and an address byte can fail to decode. -/
theorem decodedCodeIsTheEncoding : Obligations.DecodedCodeIsTheEncoding := by
  intro c i h
  cases c with
  | event32 w => exact encode_of_decodeEvent h
  | busAddressByte b => exact encode_of_decodeAddressByte h
  | busWriteDataByte b => cases h; rfl
  | busReadDataByte0 b k | busReadDataByte1 b k => cases h; simp [encode]

/-- An event word decodes to an instruction exactly if it is its encoding. -/
theorem decodeEvent_eq_some_iff {w : EventWord} {i : Instr} : decodeEvent w = some i ↔ encode i = .event32 w := by
  refine ⟨encode_of_decodeEvent, fun h => ?_⟩
  have := decodeReadsBackEncode i
  rwa [h] at this

/-- Settles O1: the listed words and bytes are closed, so the decoder is run on each. -/
theorem listedWordsDecode : Obligations.ListedWordsDecode := by
  unfold Obligations.ListedWordsDecode
  decide

/-! ### The INVALID space (R84) -/

theorem EventWord.toNat_tag (w : EventWord) : w.tag.toNat = w.tagNat := by
  have := w.isLt
  simp only [EventWord.tag, EventWord.tagNat, BitVec.extractLsb'_toNat, Nat.shiftRight_eq_div_pow]
  omega

theorem EventWord.toNat_rsv (w : EventWord) : w.rsv.toNat = w.rsvNat := by
  simp only [EventWord.rsv, EventWord.rsvNat, BitVec.extractLsb'_toNat, Nat.shiftRight_eq_div_pow]

theorem EventWord.toNat_payload (w : EventWord) : w.payload.toNat = w.payloadNat := by
  simp [EventWord.payload, EventWord.payloadNat, BitVec.extractLsb'_toNat]

theorem EventWord.rsv_eq_zero_iff (w : EventWord) : w.rsv = 0 ↔ w.rsvNat = 0 := by
  rw [← w.toNat_rsv, BitVec.toNat_eq]
  rfl

theorem EventWord.payload_eq_iff (w : EventWord) (p : BitVec 16) : w.payload = p ↔ w.payloadNat = p.toNat := by
  rw [← w.toNat_payload, BitVec.toNat_eq]

theorem EventWord.payload_high_eq_zero_iff (w : EventWord) :
    w.payload.extractLsb' 8 8 = 0#8 ↔ w.payloadNat / 2 ^ 8 = 0 := by
  have := w.payload.isLt
  rw [← w.toNat_payload, BitVec.toNat_eq, BitVec.extractLsb'_toNat, Nat.shiftRight_eq_div_pow, BitVec.toNat_ofNat]
  omega

theorem bareEvent_eq_none_iff {w : EventWord} {i : Instr} : bareEvent w i = none ↔ w.payloadNat ≠ 0 := by
  simp [bareEvent, w.payload_eq_iff]

/-- R84: the decoder gives nothing exactly on the INVALID space, tag by tag. -/
theorem decodeEvent_eq_none_iff (w : EventWord) : decodeEvent w = none ↔ w.invalid = true := by
  unfold decodeEvent
  split
  case isFalse hr => simp [EventWord.invalid, mt w.rsv_eq_zero_iff.mpr hr]
  case isTrue hr =>
    have hr := w.rsv_eq_zero_iff.mp hr
    rw [w.toNat_tag]
    split
    case h_1 ht =>
      simp [EventWord.invalid, hr, ht, w.payload_eq_iff]
      split_ifs <;> simp <;> omega
    case h_2 ht => simp [EventWord.invalid, hr, ht, w.payload_high_eq_zero_iff]
    case h_7 ht => simp [EventWord.invalid, hr, ht]
    case h_11 =>
      have ht : w.tagNat = 0 ∨ 0xB ≤ w.tagNat := by grind
      simp [EventWord.invalid, ht]
    all_goals simp [EventWord.invalid, *, bareEvent_eq_none_iff]

/-! ### The opcode table (R85) -/

/-- A mask that fixes the first `k` bits leaves the rest of the word free. -/
theorem and_prefixMask_eq_iff {k m : Nat} (w : BitVec (k + m)) (v : BitVec k) :
    w &&& (BitVec.allOnes k ++ 0#m) = v ++ 0#m ↔ ∃ y : BitVec m, w = v ++ y := by
  constructor
  · intro h
    refine ⟨w.setWidth m, BitVec.eq_of_getLsbD_eq fun i hi => ?_⟩
    have hbit := congrArg (fun x => x.getLsbD i) h
    simp only [BitVec.getLsbD_and, BitVec.getLsbD_append, BitVec.getLsbD_setWidth] at hbit ⊢
    by_cases hm : i < m
    · simp [hm]
    · simpa [hm, show i - m < k by omega] using hbit
  · rintro ⟨y, rfl⟩
    refine BitVec.eq_of_getLsbD_eq fun i hi => ?_
    by_cases hm : i < m
    · simp [BitVec.getLsbD_append, hm]
    · simp [BitVec.getLsbD_append, hm, show i - m < k by omega]

theorem EventRow.holds_iff {r : EventRow} {w : EventWord} : r.holds w = true ↔ w &&& r.mask = r.value := beq_iff_eq

/-- A row with the full mask holds of its value only. -/
theorem holds_fullRow_iff {m : String} {v w : EventWord} : EventRow.holds ⟨m, v, 0xFFFFFFFF⟩ w = true ↔ w = v := by
  rw [EventRow.holds_iff, show (0xFFFFFFFF : EventWord) = BitVec.allOnes 32 from rfl, BitVec.and_allOnes]

theorem holds_rxRow_iff {w : EventWord} :
    EventRow.holds ⟨"rx", 0x20000000, 0xFFFFFF00⟩ w = true ↔ ∃ b, w = rxWord b := by
  simp only [EventRow.holds_iff, rxWord_eq]
  exact and_prefixMask_eq_iff (k := 24) (m := 8) w 0x200000#24

theorem holds_doneRow_iff {w : EventWord} :
    EventRow.holds ⟨"done", 0x70000000, 0xFFFF0000⟩ w = true ↔ ∃ v, w = doneWord v := by
  simp only [EventRow.holds_iff, doneWord_eq]
  exact and_prefixMask_eq_iff (k := 16) (m := 16) w 0x7000#16

/-- A word that belongs to a row decodes to the row's instruction. -/
theorem decodeEvent_of_holds {r : EventRow} {w : EventWord} (hr : r ∈ eventRows) (h : r.holds w = true) :
    ∃ i, decodeEvent w = some i ∧ i.mnemonic = r.mnemonic := by
  simp only [eventRows, List.mem_cons, List.not_mem_nil, or_false] at hr
  rcases hr with rfl | rfl | rfl | rfl | rfl | rfl | rfl | rfl | rfl | rfl | rfl
  case inr.inr.inl =>
    obtain ⟨b, rfl⟩ := holds_rxRow_iff.mp h
    exact ⟨.rx b, decodeEvent_rxWord b, rfl⟩
  case inr.inr.inr.inr.inr.inr.inr.inl =>
    obtain ⟨v, rfl⟩ := holds_doneRow_iff.mp h
    exact ⟨.done v, decodeEvent_doneWord v, rfl⟩
  all_goals
    obtain rfl := holds_fullRow_iff.mp h
    exact ⟨_, rfl, rfl⟩

/-- A word that decodes belongs to the row of its instruction. -/
theorem holds_of_decodeEvent {w : EventWord} {i : Instr} (h : decodeEvent w = some i) :
    ∃ r ∈ eventRows, r.holds w = true ∧ r.mnemonic = i.mnemonic := by
  have he := decodeEvent_eq_some_iff.mp h
  cases i with
  | rx b => cases he; exact ⟨_, by simp [eventRows], holds_rxRow_iff.mpr ⟨b, rfl⟩, rfl⟩
  | done v => cases he; exact ⟨_, by simp [eventRows], holds_doneRow_iff.mpr ⟨v, rfl⟩, rfl⟩
  | busAddrW | busAddrR | busSel | busResLo | busResHi => cases he
  | _ => cases he; exact ⟨_, by decide, holds_fullRow_iff.mpr rfl, rfl⟩

theorem nodup_mnemonics : (eventRows.map EventRow.mnemonic).Nodup := by decide

/-- The rows are told apart by their mnemonics, so a word belongs exactly to the row that spells what it decodes to. -/
theorem holds_iff_mnemonic {r : EventRow} {w : EventWord} {i : Instr} (hr : r ∈ eventRows) (h : decodeEvent w = some i) :
    r.holds w = true ↔ r.mnemonic = i.mnemonic := by
  constructor
  · intro hw
    obtain ⟨j, hj, hm⟩ := decodeEvent_of_holds hr hw
    obtain rfl : i = j := Option.some.inj (h.symm.trans hj)
    exact hm.symm
  · intro hm
    obtain ⟨t, ht, hw, htm⟩ := holds_of_decodeEvent h
    rwa [List.inj_on_of_nodup_map nodup_mnemonics hr ht (hm.trans htm.symm)]

/-- Settles O5: the rows that hold of a word are those that spell what it decodes to, and each mnemonic stands in one row. -/
theorem decoderIsTheOpcodeTable : Obligations.DecoderIsTheOpcodeTable := by
  intro w
  rcases h : decodeEvent w with _ | i
  · have hnone : ∀ r ∈ eventRows, ¬r.holds w = true := by
      intro r hr hw
      obtain ⟨i, hi, -⟩ := decodeEvent_of_holds hr hw
      simp [h] at hi
    rw [List.filter_eq_nil_iff.mpr hnone]
    rfl
  · obtain ⟨r, hr, -, hm⟩ := holds_of_decodeEvent h
    have hmem : i.mnemonic ∈ eventRows.map EventRow.mnemonic := List.mem_map.mpr ⟨r, hr, hm⟩
    have hspelt : ∀ r ∈ eventRows, r.holds w = (r.mnemonic == i.mnemonic) := by
      intro r hr
      rw [Bool.eq_iff_iff, holds_iff_mnemonic hr h, beq_iff_eq]
    calc (eventRows.filter (fun r => r.holds w)).map EventRow.mnemonic
        = (eventRows.filter ((· == i.mnemonic) ∘ EventRow.mnemonic)).map EventRow.mnemonic := by
          rw [List.filter_congr hspelt]
          rfl
      _ = (eventRows.map EventRow.mnemonic).filter (· == i.mnemonic) := List.filter_map.symm
      _ = [i.mnemonic] := by rw [List.filter_beq, List.count_eq_one_of_mem nodup_mnemonics hmem]; rfl

end Sys2Proof

namespace Sys2Proof.Machine

/-- R84: a word that decodes to nothing is refused by name. -/
theorem takeMove_word_of_decodeEvent_none {w : EventWord} (h : decodeEvent w = none) (s : State) :
    takeMove (.code (.event32 w)) s = .refused .invalidEncoding := by
  simp only [takeMove, takeCode, decode, h, takeUndecoded]

/-- Settles O4: the decoder gives nothing exactly on the INVALID space, and a replay refuses what gives nothing. -/
theorem invalidWordsNameNoEvent : Obligations.InvalidWordsNameNoEvent :=
  ⟨decodeEvent_eq_none_iff, fun w s h => takeMove_word_of_decodeEvent_none ((decodeEvent_eq_none_iff w).mpr h) s⟩

end Sys2Proof.Machine

end

/-! ### Proofs of the encoding family: event words, read frames and recorded runs at the machine (R86, R90, R175) -/

section

namespace Sys2Proof.Machine

variable {n : Nat}

/-! ### Read frames (R90, R175) -/

theorem mRdEffect_ack {s : System n} {d : Byte} (h : s.stg = ⟨true, d⟩) :
    mRdEffect .ack s = { s with mobs := s.mobs ++ [.byte d], stg := ⟨false, d⟩, txreq := true } := by
  simp [mRdEffect, answerByte, observe, flush, h]

theorem mRdEffect_nack {s : System n} {d : Byte} (h : s.stg = ⟨true, d⟩) :
    mRdEffect .nack s
      = { s with mobs := s.mobs ++ [.byte d], stg := ⟨false, d⟩, mnack := true, pend := nackWord } := by
  simp [mRdEffect, answerByte, observe, flush, raiseCondition, h]

/-- A read frame with another byte than the staged one, or with none staged, does not happen. -/
theorem readFrame_of_not_staged (high : Bool) {d : Byte} (a : Ack) {s : System n} (h : s.stg ≠ ⟨true, d⟩) :
    readFrame high d a s = .fault .notEligible := by
  unfold readFrame
  split
  case isFalse => rfl
  case isTrue hd =>
    obtain ⟨-, rfl⟩ : stagedIsHigh s = high ∧ s.stg.data = d := by simpa using hd
    have hne : ¬readEnabled s = true := by
      intro he
      obtain ⟨-, -, -, hfull, -⟩ := readEnabled_iff.mp he
      exact h (by rw [← hfull])
    rw [mRd, act, if_neg hne]

theorem onSystem_readFrame_of_not_staged (high : Bool) {d : Byte} (a : Ack) {s : State} (h : s.stg ≠ ⟨true, d⟩) :
    onSystem (readFrame high d a) s = .fault .notEligible := by
  rw [onSystem, readFrame_of_not_staged high a h]

/-- R175 through a read frame: the byte is the staged one, at the place that the cursor gives. -/
theorem onSystem_readFrame_of_staged {high : Bool} {d : Byte} {s : State} (hp : s.pend = 0) (ha : s.addressed = true)
    (hr : s.phase = .addrR ∨ s.phase = .transmitting) (hs : s.stg = ⟨true, d⟩) (hm : s.mnack = false)
    (hh : stagedIsHigh s.toSystem = high) :
    onSystem (readFrame high d .ack) s
        = .next { s with mobs := s.mobs ++ [.byte d], stg := ⟨false, d⟩, txreq := true }
      ∧ onSystem (readFrame high d .nack) s
        = .next { s with mobs := s.mobs ++ [.byte d], stg := ⟨false, d⟩, mnack := true, pend := 0x50000000 } := by
  have he : stagedIsHigh s.toSystem = high ∧ s.stg.data = d ∧ readEnabled s.toSystem = true :=
    ⟨hh, by simp [hs], readEnabled_iff.mpr ⟨hp, ha, hr, by simp [hs], hm⟩⟩
  rw [onSystem_readFrame_next.mpr ⟨he, rfl⟩, onSystem_readFrame_next.mpr ⟨he, rfl⟩, mRdEffect_ack hs, mRdEffect_nack hs,
    nackWord_eq]
  exact ⟨rfl, rfl⟩

/-- Settles O27: both frames are the read of R175, and neither happens without its byte staged. -/
theorem readFrames : Obligations.ReadFrames := by
  refine ⟨fun s d hp ha hr hs hm hc => ?_, fun s d hp ha hr hs hm hc => ?_, fun s d a hs => ⟨?_, ?_⟩⟩
  · exact onSystem_readFrame_of_staged hp ha hr hs hm (by simp [stagedIsHigh, hc])
  · exact onSystem_readFrame_of_staged hp ha hr hs hm (by simp [stagedIsHigh, hc])
  · exact onSystem_readFrame_of_not_staged false a hs
  · exact onSystem_readFrame_of_not_staged true a hs

/-! ### The bytes that the master receives (R63, R90) -/

theorem takeMove_rd_next_iff {a : Ack} {s t : State} :
    takeMove (.rd a) s = .next t
      ↔ readEnabled s.toSystem = true ∧ t = { s with toSystem := mRdEffect a s.toSystem } := by
  rw [takeMove_rd]
  exact onSystem_act_next

@[simp] theorem mRdEffect_mobs (a : Ack) (s : System n) : (mRdEffect a s).mobs = s.mobs ++ [.byte s.stg.data] := by
  cases a <;> rfl

@[simp] theorem mRdEffect_res (a : Ack) (s : System n) : (mRdEffect a s).res = s.res := by
  cases a <;> rfl

/-- Settles O37: the byte read is the staged one, and INV4 says which byte of RES that is. -/
theorem deliveredByteIsOfTheResult : Obligations.DeliveredByteIsOfTheResult := by
  intro s t a hinv h
  obtain ⟨he, rfl⟩ := takeMove_rd_next_iff.mp h
  obtain ⟨-, -, hread, hfull, -⟩ := readEnabled_iff.mp he
  refine ⟨mRdEffect_res a _, ?_⟩
  rw [mRdEffect_mobs]
  obtain ⟨hc, hd⟩ | ⟨hc, hd⟩ := (System.inv_iff.mp hinv).staged hfull ((isRead_iff _).mpr hread)
  · exact .inl ⟨hc, by rw [hd, loByte]⟩
  · exact .inr ⟨hc, by rw [hd, hiByte]⟩

/-! ### Event words at the machine (R86) -/

/-- An event is accepted as reset or as the eligible service. -/
theorem instrAccepted_iff_of_event {i : Instr} {w : EventWord} (hw : encode i = .event32 w) (s : System n) :
    instrAccepted i s ↔ i = .reset ∨ eligible s = some i := by
  cases i with
  | reset => simp [instrAccepted]
  | busAddrW | busAddrR | busSel | busResLo | busResHi => cases hw
  | _ => simp [instrAccepted]

/-- An event that is not accepted is stuck, not refused. -/
theorem exec_event_stuck {i : Instr} {w : EventWord} (hw : encode i = .event32 w) {s : State} (hr : i ≠ .reset)
    (he : eligible s.toSystem ≠ some i) : exec i s = .fault .notEligible := by
  cases i with
  | reset => exact absurd rfl hr
  | busAddrW | busAddrR | busSel | busResLo | busResHi => cases hw
  | _ => exact onSystem_serve_stuck _ he

/-- Settles O53: the word runs what it decodes to, an event, which is accepted as the arbiter says. -/
theorem wordAcceptedWhereEligible : Obligations.WordAcceptedWhereEligible := by
  intro s w i hi
  have hw := encode_of_decodeEvent hi
  rw [takeMove_moveWord hi]
  refine ⟨fun h => ⟨rfl, _, exec_next_iff.mpr ⟨(instrAccepted_iff_of_event hw _).mpr h, rfl⟩⟩, fun h => ?_⟩
  obtain ⟨hr, he⟩ := not_or.mp h
  exact exec_event_stuck hw hr he

/-! ### The trace (R86) -/

/-- A run of several moves takes the first one and goes on from there. -/
theorem takeMoves_cons_next {m : Move} {ms : List Move} {s t : State} :
    takeMoves (m :: ms) s = .next t ↔ ∃ u, takeMove m s = .next u ∧ takeMoves ms u = .next t := by
  simp only [takeMoves]
  split <;> simp_all

/-- Naming the service does not change what is recorded for it. -/
theorem servicedWord_nameService (m : Move) (s : System n) :
    servicedWord (nameService m s) s = servicedWord m s := by
  unfold nameService
  split
  case h_1 w hw => rw [servicedWord_moveWord, hw]
  case h_2 => rfl

/-- Settles O54, move by move: the named move does the same, shows the recorded word, and is recorded alike. -/
theorem traceReplays : Obligations.TraceReplays := by
  intro ms
  induction ms with
  | nil => exact fun s t h => ⟨h, rfl, rfl⟩
  | cons m ms ih =>
    intro s t h
    obtain ⟨u, hu, hrest⟩ := takeMoves_cons_next.mp h
    obtain ⟨hend, hwords, htrace⟩ := ih u t hrest
    have hname : takeMove (nameService m s.toSystem) s = .next u := by rw [takeMove_nameService, hu]
    rw [replayOf_cons hu, takeMoves_cons hname, traceOf_cons hname, traceOf_cons hu, servicedWord_nameService, htrace,
      List.filterMap_cons, eventWordIn_nameService, hwords]
    refine ⟨hend, ?_, rfl⟩
    cases servicedWord m s.toSystem <;> rfl

/-! ### One step (R208) -/

/-- A step of a well-formed state takes the first move of the agenda. -/
theorem step_of_agenda {s : State} {m : Move} {rest : List Move} (hw : s.toSystem.wellFormed = true)
    (ha : s.agenda = m :: rest) : step s = takeMove m { s with agenda := rest } := by
  rw [step, guardedStep, if_pos hw, nextStep, ha]

theorem takeMove_code {c : Code} {i : Instr} (h : decode c = some i) (s : State) : takeMove (.code c) s = exec i s := by
  simp only [takeMove, takeCode, h]

/-- Settles O30: the step takes the agenda's first move, which runs the decoded instruction or the eligible service. -/
theorem stepRunsTheDecodedInstruction : Obligations.StepRunsTheDecodedInstruction := by
  refine ⟨fun s c i rest hw ha hc => ?_, fun s i rest hw ha he => ?_⟩
  · rw [step_of_agenda hw ha, takeMove_code hc]
  · rw [step_of_agenda hw ha, takeMove_service (by exact he)]

/-! ### An abandoned attempt (R94) -/

theorem mAddrEffect_of_not_acken (c : Config) (a : BusAddr) (d : Dir) {s : System n} (h : s.acken = false) :
    mAddrEffect c a d s = { observe .nack s with addressed := false } := by
  simp [mAddrEffect, addressAcked, h]

theorem mStopEffect_of_not_addressed {s : System n} (h : s.addressed = false) : mStopEffect s = s := by
  simp [mStopEffect, h]

/-- Settles O52: the address phase is answered NACK, so the stop is of a transaction that is not the core's. -/
theorem nackedAttemptLeavesTheCore : Obligations.NackedAttemptLeavesTheCore := by
  intro s d hp ha
  have haddr : takeMove (moveAddr 0x50 d) s
      = .next { s with mobs := s.mobs ++ [.nack], addressed := false } := by
    rw [takeMove_moveAddr]
    refine (onSystem_act _ _ (busFree_iff.mpr hp)).trans ?_
    rw [mAddrEffect_of_not_acken _ _ _ ha]
    rfl
  rw [abandonedAttempt, takeMoves_cons haddr]
  refine takeMoves_cons_next.mpr ⟨_, onSystem_act_next.mpr ⟨busFree_iff.mpr hp, rfl⟩, ?_⟩
  rw [mStopEffect_of_not_addressed rfl]
  rfl

end Sys2Proof.Machine

end

/-! ### Proofs of the encoding family: a placed word runs in the next step (log 3) -/

section

namespace Sys2Proof.Machine

variable {n : Nat} {s : System n}

/-! ### A presented event leaves the state well formed (R39, log 3) -/

/-- The well-formed states of R39, part by part. -/
structure WellFormed (s : System n) : Prop where
  /-- R25: no reserved code. -/
  notReserved : s.phase.isReserved = false
  /-- A logical channel is in flight or finished. -/
  channel : s.conv.st = .busy ∨ s.conv.st = .eoc → validSelector n s.conv.ch = true
  /-- R28. -/
  held : pendWellFormed s = true
  /-- INV1. -/
  acken : s.acken = true ↔ s.phase ≠ .stopped
  /-- INV2. -/
  awaited : s.cur = .notReady →
    s.conv.st ≠ .idle ∧ s.conv.ch = s.sel ∧ validSelector n s.sel = true ∧ s.chen = onehot n s.sel.toNat

theorem System.wellFormed_iff : s.wellFormed = true ↔ WellFormed s := by
  simp only [System.wellFormed, Bool.and_eq_true, Bool.not_eq_true', channelWellFormed_iff, inv1_iff, inv2_iff]
  constructor
  · rintro ⟨⟨⟨⟨hr, hc⟩, hp⟩, ha⟩, hw⟩
    exact ⟨hr, hc, hp, ha, hw⟩
  · rintro ⟨hr, hc, hp, ha, hw⟩
    exact ⟨⟨⟨⟨hr, hc⟩, hp⟩, ha⟩, hw⟩

theorem settleConversion_not_pending (s : System n) : conversionPending (settleConversion s) = false := by
  unfold settleConversion
  split
  case isTrue => by_cases hc : s.cur = .notReady <;> simp [conversionPending, hc]
  case isFalse h => exact Bool.eq_false_iff.mpr h

/-- A conversion that had ended is in flight again where its result is awaited, so its channel is a logical one (INV2). -/
theorem WellFormed.settleConversion (h : WellFormed s) : WellFormed (settleConversion s) := by
  unfold Machine.settleConversion
  split
  case isFalse => exact h
  case isTrue =>
    by_cases hc : s.cur = .notReady
    · obtain ⟨-, hch, hv, hen⟩ := h.awaited hc
      simp only [hc, if_true]
      exact { h with channel := fun _ => hch ▸ hv, awaited := fun _ => ⟨nofun, hch, hv, hen⟩ }
    · simp only [hc, if_false]
      exact { h with channel := by simp, awaited := fun hn => absurd hn hc }

theorem WellFormed.clearCondition (h : WellFormed s) : WellFormed (clearCondition s) :=
  { h with held := rfl }

theorem WellFormed.raiseCondition {w : EventWord} {i : Instr} (h : WellFormed s) (hw : heldEvent w = some i) :
    WellFormed (raiseCondition w s) :=
  { h with held := by simp [pendWellFormed, hw] }

theorem notReserved_of_isAddressed {p : Phase} (h : p.isAddressed = true) : p.isReserved = false := by
  cases p with
  | reserved6 | reserved7 => cases h
  | _ => rfl

/-- The phase that `inPhase` leaves is of the wanted kind. -/
theorem wanted_inPhase {wanted : Phase → Bool} {p : Phase} (hp : wanted p = true) (s : System n) :
    wanted (inPhase wanted p s).phase = true := by
  unfold inPhase
  split
  case isTrue hs => exact hs
  case isFalse => exact hp

/-- In an addressed phase, address acknowledgement is on (INV1). -/
theorem WellFormed.inAddressedPhase {wanted : Phase → Bool} {p : Phase} (h : WellFormed s)
    (hp : (inPhase wanted p s).phase.isAddressed = true) : WellFormed (inPhase wanted p s) :=
  { h with
    notReserved := notReserved_of_isAddressed hp
    acken := iff_of_true rfl (ne_stopped_of_isAddressed hp) }

theorem WellFormed.inReadPhase (h : WellFormed s) : WellFormed (inPhase Phase.isRead .addrR s) :=
  h.inAddressedPhase (isAddressed_of_isRead (wanted_inPhase rfl s))

theorem WellFormed.inWritePhase (h : WellFormed s) : WellFormed (inPhase Phase.isWrite .addrW s) :=
  h.inAddressedPhase (isAddressed_of_isWrite (wanted_inPhase rfl s))

/-- A held condition is presented with no conversion ended, so it is the eligible service. -/
theorem eligible_raiseCondition {w : EventWord} {i : Instr} (hw : heldEvent w = some i) (s : System n) :
    eligible (raiseCondition w (settleConversion s)) = some i :=
  eligible_of_held (settleConversion_not_pending s) hw

/-- R39: the state in which an event is presented is well formed. -/
theorem WellFormed.present (h : WellFormed s) (hn : 0 < n) (i : Instr) : WellFormed (present i s) := by
  cases i with
  | amW => exact h.settleConversion.raiseCondition heldEvent_amWord_w
  | amR => exact h.settleConversion.raiseCondition heldEvent_amWord_r
  | rx b => exact h.settleConversion.raiseCondition (heldEvent_rxWord b)
  | stop => exact h.settleConversion.raiseCondition heldEvent_stopWord
  | nack => exact h.settleConversion.raiseCondition heldEvent_nackWord
  | ovr => exact h.settleConversion.raiseCondition heldEvent_ovrWord
  | txr =>
    have hf : WellFormed (flush (Machine.clearCondition (Machine.settleConversion s))) :=
      { h.settleConversion.clearCondition with }
    exact { hf.inReadPhase with }
  | done v =>
    have hch : validSelector n (if validSelector n s.conv.ch then s.conv.ch else 0) = true := by
      split
      case isTrue hv => exact hv
      case isFalse => exact (validSelector_iff n 0).mpr hn
    refine { h with channel := fun _ => hch, awaited := fun hc => ?_ }
    obtain ⟨-, hsel, hv, hen⟩ := h.awaited hc
    exact ⟨nofun, by simp [Machine.present, hsel, hv], hv, hen⟩
  | fail => exact { h with channel := nofun, awaited := fun hc => ⟨nofun, (h.awaited hc).2⟩ }
  | rearm => exact { h.settleConversion.clearCondition with notReserved := rfl, acken := by simp [Machine.present] }
  | reset => exact h
  | busAddrW | busAddrR => exact h.clearCondition
  | busSel c => exact { h.clearCondition.inWritePhase with }
  | busResLo d a =>
    have hcur : (if s.cur = .done then Cursor.one else s.cur) = .notReady → s.cur = .notReady := by split <;> simp
    exact { h.clearCondition.inReadPhase with awaited := fun hc => h.awaited (hcur hc) }
  | busResHi d a => exact { h.clearCondition.inReadPhase with awaited := nofun }

/-- The presented event or frame is accepted. -/
theorem instrAccepted_present (i : Instr) (s : System n) : instrAccepted i (present i s) := by
  cases i with
  | amW => exact eligible_raiseCondition heldEvent_amWord_w s
  | amR => exact eligible_raiseCondition heldEvent_amWord_r s
  | rx b => exact eligible_raiseCondition (heldEvent_rxWord b) s
  | stop => exact eligible_raiseCondition heldEvent_stopWord s
  | nack => exact eligible_raiseCondition heldEvent_nackWord s
  | ovr => exact eligible_raiseCondition heldEvent_ovrWord s
  | txr =>
    have hread := wanted_inPhase (wanted := Phase.isRead) (p := .addrR) rfl (flush (clearCondition (settleConversion s)))
    exact eligible_txr.mpr
      ⟨settleConversion_not_pending s, readyToTransmit_iff.mpr ⟨rfl, (isRead_iff _).mp hread, rfl, rfl⟩⟩
  | done v => exact eligible_done.mpr ⟨rfl, rfl⟩
  | fail => exact eligible_fail.mpr rfl
  | rearm => exact eligible_rearm.mpr ⟨settleConversion_not_pending s, rfl, rfl⟩
  | reset => trivial
  | busAddrW | busAddrR => rfl
  | busSel c =>
    have hwrite := wanted_inPhase (wanted := Phase.isWrite) (p := .addrW) rfl (clearCondition s)
    exact writeEnabled_iff.mpr ⟨rfl, rfl, (isWrite_iff _).mp hwrite⟩
  | busResLo d a =>
    have hread := wanted_inPhase (wanted := Phase.isRead) (p := .addrR) rfl (clearCondition s)
    refine ⟨?_, rfl, readEnabled_iff.mpr ⟨rfl, rfl, (isRead_iff _).mp hread, rfl, rfl⟩⟩
    by_cases hc : s.cur = .done <;> simp [stagedIsHigh, present, hc]
  | busResHi d a =>
    have hread := wanted_inPhase (wanted := Phase.isRead) (p := .addrR) rfl (clearCondition s)
    exact ⟨rfl, rfl, readEnabled_iff.mpr ⟨rfl, rfl, (isRead_iff _).mp hread, rfl, rfl⟩⟩

/-! ### A placed word runs next (log 3) -/

/-- A placed table word is a code that decodes: the agenda's first move, with its event presented. -/
theorem withFetchWord_of_decodes {nbits w : Nat} {i : Instr} (h : decodeTableWord nbits w = some i) (s : State) :
    ∃ c, decode c = some i
      ∧ s.withFetchWord nbits w = { s with toSystem := present i s.toSystem, agenda := .code c :: s.agenda } := by
  unfold decodeTableWord at h
  split at h
  case h_1 c hc => exact ⟨c, h, by simp only [State.withFetchWord, placeTableWord, hc, placeCode, h]⟩
  case h_2 => cases h

/-- Settles O31: the presented state is well formed, so the step takes the placed code, which is accepted there. -/
theorem placedWordRunsNext : Obligations.PlacedWordRunsNext := by
  intro s nbits w i hw hi
  obtain ⟨c, hc, hplaced⟩ := withFetchWord_of_decodes hi s
  have hwf : (present i s.toSystem).wellFormed = true :=
    System.wellFormed_iff.mpr ((System.wellFormed_iff.mp hw).present (by decide) i)
  have hstep : step (s.withFetchWord nbits w) = exec i { s with toSystem := present i s.toSystem } := by
    rw [hplaced, step_of_agenda hwf rfl, takeMove_code hc]
  exact ⟨hstep, _, hstep.trans (exec_next_iff.mpr ⟨instrAccepted_present i _, rfl⟩)⟩

end Sys2Proof.Machine

end

/-! ### Proofs of the bus-events family: the bus-side services (R100-R109) -/

section

namespace Sys2Proof.Machine

variable {n : Nat}

/-! ### A service whose condition PEND holds (R100, R101-R103, R105-R107, R208) -/

/-- A held condition's service is eligible exactly where PEND is its word and no conversion has ended. -/
theorem eligible_held_iff {i : Instr} {w : EventWord} {s : System n} (hi : heldInPend i = true)
    (hw : decodeEvent w = some i) :
    eligible s = some i ↔ s.pend = w ∧ s.conv.st ≠ .eoc ∧ s.conv.st ≠ .err := by
  constructor
  · intro h
    rcases eligible_cases h with ⟨-, rfl⟩ | ⟨-, rfl⟩ | ⟨hc, hh⟩ | ⟨-, -, rfl⟩ | ⟨-, -, -, rfl⟩
    case inr.inr.inl =>
      have hpend : encode i = .event32 s.pend := encode_of_decodeEvent (Option.filter_eq_some_iff.mp hh).1
      rw [encode_of_decodeEvent hw] at hpend
      exact ⟨(Code.event32.inj hpend).symm, conversionPending_eq_false.mp hc⟩
    all_goals cases hi
  · rintro ⟨rfl, hc⟩
    exact eligible_of_held (conversionPending_eq_false.mpr hc) (Option.filter_eq_some_iff.mpr ⟨hw, hi⟩)

/-- An event that is the eligible service has its effect. -/
theorem exec_event_of_eligible {i : Instr} {w : EventWord} {s : State} (hw : decodeEvent w = some i)
    (he : eligible s.toSystem = some i) :
    exec i s = .next { s with toSystem := instrEffect Config.esplant i s.toSystem } :=
  exec_next_iff.mpr ⟨(instrAccepted_iff_of_event (encode_of_decodeEvent hw) _).mpr (.inr he), rfl⟩

/-- A held condition's service is taken with its word in PEND and no conversion ended. -/
theorem exec_held_next {i : Instr} {w : EventWord} {s : State} (hi : heldInPend i = true) (hw : decodeEvent w = some i)
    (hp : s.pend = w) (heoc : s.conv.st ≠ .eoc) (herr : s.conv.st ≠ .err) :
    exec i s = .next { s with toSystem := instrEffect Config.esplant i s.toSystem } :=
  exec_event_of_eligible hw ((eligible_held_iff hi hw).mpr ⟨hp, heoc, herr⟩)

/-- Everywhere else a held condition's service is stuck. -/
theorem exec_held_stuck {i : Instr} {w : EventWord} {s : State} (hi : heldInPend i = true) (hw : decodeEvent w = some i)
    (h : ¬(s.pend = w ∧ s.conv.st ≠ .eoc ∧ s.conv.st ≠ .err)) : exec i s = .fault .notEligible :=
  exec_event_stuck (encode_of_decodeEvent hw) (by rintro rfl; cases hi) (mt (eligible_held_iff hi hw).mp h)

/-! ### Address matches (R101, R102) -/

/-- Settles O6: a held condition's service; in the invariant an address match does not wait in STOPPED. -/
theorem addressMatchWriteService : Obligations.AddressMatchWriteService := by
  have hw : decodeEvent 0x10000000 = some .amW := by decide
  refine ⟨hw, fun s => exec_held_next rfl hw, fun s => exec_held_stuck rfl hw, fun s t hinv h => ?_⟩
  obtain ⟨he, -⟩ := exec_next_iff.mp h
  exact (System.inv_iff.mp hinv).bus.not_stopped (eligible_amW.mp he).2

/-- Settles O7: the rewind writes CUR, under its condition, and the rest is written out in the effect. -/
theorem addressMatchReadEffect : Obligations.AddressMatchReadEffect := by
  intro c s
  have hcur : (rewind c (flush (clearCondition s))).cur
      = if c.rewindOnRead = true ∧ s.cur ≠ .notReady then .zero else s.cur := by
    simp [rewind, apply_ite System.cur]
  rw [amREffect, rewind_eq, hcur]
  rfl

/-- Settles O8: a held condition's service; REWIND_ON_READ is set on this hardware. -/
theorem addressMatchReadService : Obligations.AddressMatchReadService := by
  have hw : decodeEvent 0x10000001 = some .amR := by decide
  refine ⟨hw, fun s hp heoc herr => ?_, fun s => exec_held_stuck rfl hw⟩
  rw [exec_held_next rfl hw hp heoc herr, instrEffect, addressMatchReadEffect]
  by_cases hc : s.cur = .notReady <;> simp [hc]

/-! ### A data byte (R103) -/

/-- Settles O9, by the two branches of the selection. -/
theorem byteReceivedEffect : Obligations.ByteReceivedEffect := by
  intro n s b
  by_cases hb : b.toNat < n
  · rw [rxEffect, if_pos ((validSelector_iff n b).mpr hb), if_pos hb]
    rfl
  · rw [rxEffect, if_neg (mt (validSelector_iff n b).mp hb), if_neg hb]
    rfl

/-- Settles O10: a held condition's service, with a selector valid below N = 7. -/
theorem byteReceivedService : Obligations.ByteReceivedService := by
  have hw (b : Byte) : decodeEvent (0x200000#24 ++ b) = some (.rx b) := by rw [← rxWord_eq, decodeEvent_rxWord]
  refine ⟨hw, fun s b hp heoc herr hb => ?_, fun s b hp heoc herr hb => ?_, fun s b => exec_held_stuck rfl (hw b)⟩
  · rw [exec_held_next rfl (hw b) hp heoc herr, instrEffect, byteReceivedEffect, if_pos (Nat.lt_succ_of_le hb)]
  · rw [exec_held_next rfl (hw b) hp heoc herr, instrEffect, byteReceivedEffect, if_neg (Nat.not_lt.mpr hb)]

/-! ### The next byte of a read (R104) -/

/-- The eligibility of `txr` in the words of R104. -/
theorem eligible_txr_iff {s : System n} :
    eligible s = some .txr
      ↔ s.pend = 0 ∧ s.conv.st ≠ .eoc ∧ s.conv.st ≠ .err ∧ (s.phase = .addrR ∨ s.phase = .transmitting)
        ∧ s.stg.full = false ∧ s.txreq = true := by
  rw [eligible_txr, conversionPending_eq_false, readyToTransmit_iff]
  tauto

/-- Settles O11: where it is eligible, `txr` pushes what the cursor names, cursor by cursor. -/
theorem readyToTransmitService : Obligations.ReadyToTransmitService := by
  have hw : decodeEvent 0x30000000 = some .txr := by decide
  refine ⟨hw, fun s hp heoc herr hr hf hq => ?_, fun s h => ?_⟩
  · rw [exec_event_of_eligible hw (eligible_txr_iff.mpr ⟨hp, heoc, herr, hr, hf, hq⟩), instrEffect, txrEffect]
    split
    case h_1 hc => rw [sendNext_zero (by exact hc)]; rfl
    case h_2 hc => rw [sendNext_one (by exact hc)]; rfl
    case h_3 hc => rw [sendNext_done (by exact hc)]
    case h_4 hc => rw [sendNext_notReady (by exact hc)]
  · exact exec_event_stuck (encode_of_decodeEvent hw) nofun (mt eligible_txr_iff.mp h)

/-! ### The end of a transaction (R105-R108) -/

/-- R91, R172: with ACKEN off an address phase is answered NACK, and nothing of the core changes. -/
theorem takeMove_moveAddr_of_not_acken (a : BusAddr) (d : Dir) {s : State} (hp : s.pend = 0) (ha : s.acken = false) :
    takeMove (moveAddr a d) s = .next { s with mobs := s.mobs ++ [.nack], addressed := false } := by
  rw [takeMove_moveAddr]
  refine (onSystem_act _ _ (busFree_iff.mpr hp)).trans ?_
  rw [mAddrEffect_of_not_acken _ _ _ ha]
  rfl

/-- Settles O12: a held condition's service; it leaves the bus free and ACKEN off. -/
theorem stopService : Obligations.StopService := by
  have hw : decodeEvent 0x40000000 = some .stop := by decide
  refine ⟨hw, fun s => exec_held_next rfl hw, fun s => exec_held_stuck rfl hw, fun s t d h => ?_⟩
  obtain ⟨-, rfl⟩ := exec_next_iff.mp h
  exact takeMove_moveAddr_of_not_acken _ _ rfl rfl

/-- Settles O13: two held conditions' services. -/
theorem busErrorServices : Obligations.BusErrorServices := by
  have hnack : decodeEvent 0x50000000 = some .nack := by decide
  have hovr : decodeEvent 0x60000000 = some .ovr := by decide
  exact ⟨hnack, hovr, fun s => exec_held_next rfl hnack, fun s => exec_held_stuck rfl hnack,
    fun s => exec_held_next rfl hovr, fun s => exec_held_stuck rfl hovr⟩

/-- The eligibility of `rearm` in the words of R108. -/
theorem eligible_rearm_iff {s : System n} :
    eligible s = some .rearm ↔ s.phase = .stopped ∧ s.pend = 0 ∧ s.conv.st ≠ .eoc ∧ s.conv.st ≠ .err := by
  rw [eligible_rearm, conversionPending_eq_false, pendNone]
  tauto

/-- Settles O14: an event that PEND never holds, accepted where it is eligible. -/
theorem rearmService : Obligations.RearmService := by
  have hw : decodeEvent 0x90000000 = some .rearm := by decide
  refine ⟨hw, fun s hs hp heoc herr => ?_, fun s h => ?_⟩
  · exact exec_event_of_eligible hw (eligible_rearm_iff.mpr ⟨hs, hp, heoc, herr⟩)
  · exact exec_event_stuck (encode_of_decodeEvent hw) nofun (mt eligible_rearm_iff.mp h)

/-! ### The phase tables (R109) -/

@[simp] theorem rxEffect_phase (b : Byte) (s : System n) : (rxEffect b s).phase = .receiving := by
  unfold rxEffect
  split <;> rfl

@[simp] theorem txrEffect_phase (s : System n) : (txrEffect s).phase = .transmitting := by
  rw [txrEffect, sendNext_eq]

/-- The first table of R109, for every configuration. -/
theorem instrEffect_phase {i : Instr} {p : Phase} (c : Config) (s : System n) (h : phaseAfter i = some p) :
    (instrEffect c i s).phase = p := by
  cases i with
  | nack | ovr | done | fail | busAddrW | busAddrR | busSel | busResLo | busResHi => cases h
  | rx b => cases h; exact rxEffect_phase b s
  | txr => cases h; exact txrEffect_phase s
  | amW | amR | stop | rearm | reset => cases h; rfl

/-- Where the first table of R109 names no phase, the access matrix has no W under PHASE. -/
theorem phase_not_mem_rowWrites {i : Instr} (h : phaseAfter i = none) : .phase ∉ rowWrites i := by
  cases i with
  | amW | amR | rx | txr | stop | rearm | reset => cases h
  | _ => simp [rowWrites]

/-- Settles O42: a named phase is the effect's own; otherwise the access matrix keeps PHASE. -/
theorem phaseAfterService : Obligations.PhaseAfterService := by
  intro i s t h
  obtain ⟨-, rfl⟩ := exec_next_iff.mp h
  exact ⟨fun p hp => instrEffect_phase _ _ hp,
    fun hn => sameOutside_instrEffect Config.esplant i s.toSystem .phase (phase_not_mem_rowWrites hn)⟩

/-- A held condition is one that the second table of R109 lists for the phase. -/
theorem Invariant.eventsIn_of_held {i : Instr} {s : System n} (h : Invariant s) (hi : heldEvent s.pend = some i) :
    eventsIn s.phase i = true := by
  obtain ⟨hp, -⟩ | ⟨d, hp, hs⟩ | ⟨b, hp, hs⟩ | ⟨hp, hs⟩ | ⟨hp, hs⟩ | ⟨hp, -, hs⟩ := h.bus <;> rw [hp] at hi
  case none => simp at hi
  case addressMatch =>
    obtain rfl | rfl : i = .amW ∨ i = .amR := by cases d <;> simp_all
    all_goals simp [eventsIn, h.notReserved, hs]
  all_goals
    obtain rfl : _ = i := by simpa using hi
    exact hs

/-- Settles O43, by the ways in which a service can be eligible. -/
theorem eventsOfEachPhase : Obligations.EventsOfEachPhase := by
  intro s i hinv he
  have h := System.inv_iff.mp hinv
  rcases eligible_cases he with ⟨-, rfl⟩ | ⟨-, rfl⟩ | ⟨-, hh⟩ | ⟨-, hr, rfl⟩ | ⟨-, -, hs, rfl⟩
  · simp [eventsIn, h.notReserved]
  · simp [eventsIn, h.notReserved]
  · exact h.eventsIn_of_held hh
  · exact (isRead_iff _).mpr (readyToTransmit_iff.mp hr).2.1
  · simp [eventsIn, hs]

end Sys2Proof.Machine

end

/-! ### Proofs of the conversion family: selectors and the fan-out (R140-R143) -/

section

namespace Sys2Proof.Machine

variable {n : Nat}

/-- Settles O18: the byte extended to nine bits keeps its value, and N = 7 is one of the N. -/
theorem validSelectors : Obligations.ValidSelectors := fun n b =>
  ⟨validSelector_iff n b, (validSelector_iff 7 b).trans Nat.lt_succ_iff⟩

/-- R12: CHANNEL_MAP is injective, so a physical channel is named by one index. -/
theorem phys_injective {c : Config} (h : c.wellFormed = true) {i j : Nat} {p : Phys} (hi : phys c i = some p)
    (hj : phys c j = some p) : i = j := by
  obtain ⟨-, -, hnodup⟩ := c.wellFormed_iff.mp h
  obtain ⟨hlt, -⟩ := List.getElem?_eq_some_iff.mp hi
  exact (List.getElem?_inj hlt hnodup).mp (hi.trans hj.symm)

/-- R140: every index below N has its physical channel. -/
theorem exists_phys {c : Config} (h : c.wellFormed = true) {i : Nat} (hi : i < c.n) : ∃ p, phys c i = some p := by
  obtain ⟨-, hlen, -⟩ := c.wellFormed_iff.mp h
  exact ⟨_, List.getElem?_eq_getElem (hlen ▸ hi)⟩

theorem onehot_getLsbD {i : Nat} (hi : i < n) (j : Nat) : (onehot n i).getLsbD j = decide (j = i) := by
  simp [onehot, hi, eq_comm]

/-- The indices that a one-hot vector has set. -/
theorem filter_onehot {i : Nat} (hi : i < n) : (List.range n).filter (fun j => (onehot n i).getLsbD j) = [i] := by
  simp only [onehot_getLsbD hi]
  rw [List.filter_eq, List.count_eq_one_of_mem List.nodup_range (List.mem_range.mpr hi), List.replicate_one]

/-- R29: with CHEN one-hot at `i`, the channel of `i` alone is enabled. -/
theorem enabledPhys_of_onehot {c : Config} {s : System n} {i : Nat} {p : Phys} (hi : i < n)
    (hs : s.chen = onehot n i) (hp : phys c i = some p) : enabledPhys c s = [p] := by
  simp [enabledPhys, hs, filter_onehot hi, hp]

/-- R142: a valid selection enables its own bit alone. -/
theorem rxEffect_chen_of_valid {b : Byte} (hb : b.toNat < n) (s : System n) : (rxEffect b s).chen = onehot n b.toNat := by
  rw [byteReceivedEffect, if_pos hb]

/-- R143: a valid selection arms its own channel. -/
theorem rxEffect_conv_ch_of_valid {b : Byte} (hb : b.toNat < n) (s : System n) : (rxEffect b s).conv.ch = b := by
  rw [byteReceivedEffect, if_pos hb]

/-- Settles O19: CHEN is one-hot at the selected index, and CHANNEL_MAP gives that index a channel of its own. -/
theorem fanOutEnablesOneChannel : Obligations.FanOutEnablesOneChannel := by
  intro c s b hc hb
  have hchen := rxEffect_chen_of_valid hb s
  obtain ⟨p, hp⟩ := exists_phys hc hb
  refine ⟨fun j _ => ?_, p, hp, enabledPhys_of_onehot hb hchen hp, ?_, fun j hj hpj => hj (phys_injective hc hpj hp)⟩
  · rw [hchen, onehot_getLsbD hb, decide_eq_true_iff]
  · rw [sampled, rxEffect_conv_ch_of_valid hb, hp]

end Sys2Proof.Machine

end

/-! ### Proofs of the conversion family: the end of a conversion (R144-R149) -/

section

namespace Sys2Proof.Machine

variable {n : Nat}

/-- The capture gate in the words of R144. -/
theorem captureOk_iff {c : Config} {s : System n} :
    captureOk c s = true ↔ s.cur = .notReady ∨ c.captureAfterInvalid = true := by
  simp [captureOk]

/-- Settles O15: both services end the conversion, each with its own value, through the one gate. -/
theorem captureGate : Obligations.CaptureGate := by
  intro c s
  rw [← captureOk_iff]
  refine ⟨fun h => ⟨endConversion_open _ h, endConversion_open _ h⟩, fun h => ?_⟩
  have hclosed := Bool.eq_false_of_not_eq_true h
  exact ⟨endConversion_closed _ hclosed, endConversion_closed _ hclosed⟩

/-- Settles O16: `done` is eligible at EOC with its value, and its effect is the gate's. -/
theorem conversionCompleteService : Obligations.ConversionCompleteService := by
  have hw (v : Half) : decodeEvent (0x7000#16 ++ v) = some (.done v) := by rw [← doneWord_eq, decodeEvent_doneWord]
  refine ⟨hw, ?_, ?_, fun s v h => exec_event_stuck (encode_of_decodeEvent (hw v)) nofun (mt eligible_done.mp h)⟩
  all_goals
    rintro s v hst rfl hcur
    obtain ⟨hopen, hclosed⟩ := captureGate Config.esplant s.toSystem
    rw [exec_event_of_eligible (hw _) (eligible_done.mpr ⟨hst, rfl⟩), instrEffect]
  · rw [(hopen (.inl hcur)).1]
  · rw [(hclosed (by simp [hcur])).1]

/-- Settles O17: `fail` is eligible at ERR, and its effect is the gate's. -/
theorem conversionFailedService : Obligations.ConversionFailedService := by
  have hw : decodeEvent 0x80000000 = some .fail := by decide
  refine ⟨hw, ?_, ?_, fun s h => exec_event_stuck (encode_of_decodeEvent hw) nofun (mt eligible_fail.mp h)⟩
  all_goals
    intro s hst hcur
    obtain ⟨hopen, hclosed⟩ := captureGate Config.esplant s.toSystem
    rw [exec_event_of_eligible hw (eligible_fail.mpr hst), instrEffect]
  · rw [(hopen (.inl hcur)).2]
  · rw [(hclosed (by simp [hcur])).2]

/-- R177: a conversion in flight finishes with the drawn value. -/
theorem takeMove_finish_of_busy {s : State} (v : Half) (h : s.conv.st = .busy) :
    takeMove (.finish v) s = .next { s with conv := ⟨.eoc, s.conv.ch, v⟩ } :=
  onSystem_act _ _ (by simp [finishEnabled, h])

/-- Settles O56: after C.finish the completion is eligible, and with a result ready it only makes CONV idle. -/
theorem supersededResultIsDiscarded : Obligations.SupersededResultIsDiscarded := by
  intro s v hbusy hcur
  obtain ⟨-, -, hdiscard, -⟩ := conversionCompleteService
  rw [takeMoves_cons (takeMove_finish_of_busy v hbusy)]
  exact takeMoves_cons ((takeMove_service (eligible_done.mpr ⟨rfl, rfl⟩)).trans (hdiscard _ v rfl rfl hcur))

end Sys2Proof.Machine

end

/-! ### Proofs of the environment family: the bus engine and the converter, step by step (R172-R179, R188) -/

section

namespace Sys2Proof.Machine

variable {n : Nat}

/-! ### The address phase (R172) -/

/-- R172: an address phase for another device is answered NACK, and nothing of it reaches the core. -/
theorem mAddrEffect_of_ne {c : Config} {a : BusAddr} (d : Dir) (s : System n) (h : a ≠ c.ownAddr) :
    mAddrEffect c a d s = { observe .nack s with addressed := false } := by
  simp [mAddrEffect, addressAcked, h]

/-- R179: with a condition outstanding the bus engine waits. -/
theorem not_busFree {s : System n} (h : s.pend ≠ 0) : ¬busFree s = true := mt busFree_iff.mp h

theorem takeMove_moveAddr_of_held (a : BusAddr) (d : Dir) {s : State} (h : s.pend ≠ 0) :
    takeMove (moveAddr a d) s = .fault .notEligible := by
  rw [takeMove_moveAddr]
  exact onSystem_act_stuck _ _ (not_busFree h)

theorem takeMove_moveAddr_of_ne {a : BusAddr} (d : Dir) {s : State} (ha : a ≠ 0x50) (hp : s.pend = 0) :
    takeMove (moveAddr a d) s = .next { s with mobs := s.mobs ++ [.nack], addressed := false } := by
  rw [takeMove_moveAddr]
  refine (onSystem_act _ _ (busFree_iff.mpr hp)).trans ?_
  rw [mAddrEffect_of_ne d _ ha]
  rfl

/-- The two address frames are the address phases of this device. -/
theorem takeMove_moveAddr_w (s : State) : takeMove (moveAddr 0x50 .w) s = exec .busAddrW s := takeMove_moveAddr _ _ _
theorem takeMove_moveAddr_r (s : State) : takeMove (moveAddr 0x50 .r) s = exec .busAddrR s := takeMove_moveAddr _ _ _

/-- Settles O23: the frames are the address phases of OWN_ADDR, which ACKEN answers. -/
theorem addressPhase : Obligations.AddressPhase := by
  refine ⟨fun s hp ha => ?_, fun s hp ha => ?_, fun s hp => ?_, fun s => ⟨takeMove_moveAddr_w s, takeMove_moveAddr_r s⟩,
    fun s a d ha hp => takeMove_moveAddr_of_ne d ha hp⟩
  all_goals rw [← takeMove_moveAddr_w, ← takeMove_moveAddr_r]
  · rw [takeMove_ownAddress .w hp ha, takeMove_ownAddress .r hp ha, amWord_w_eq, amWord_r_eq]
    exact ⟨rfl, rfl⟩
  · exact ⟨takeMove_moveAddr_of_not_acken _ _ hp ha, takeMove_moveAddr_of_not_acken _ _ hp ha⟩
  · exact ⟨takeMove_moveAddr_of_held _ _ hp, takeMove_moveAddr_of_held _ _ hp,
      fun a d => takeMove_moveAddr_of_held a d hp⟩

/-! ### Data bytes of a write (R173, R174) -/

/-- Settles O24: the frame is the step M.wr, and the word raised is that of the byte. -/
theorem writeDataByte : Obligations.WriteDataByte := by
  refine ⟨fun s c hp ha hw => ?_, fun s c h => onSystem_act_stuck _ _ (mt writeEnabled_iff.mp h)⟩
  refine (onSystem_act _ _ (writeEnabled_iff.mpr ⟨hp, ha, hw⟩)).trans ?_
  rw [← rxWord_eq]
  rfl

/-- Settles O25: the step M.lose raises `ovr`, and the byte is no part of its effect. -/
theorem lostDataByte : Obligations.LostDataByte := by
  refine ⟨fun s b hp ha hw => ?_, fun s b h => onSystem_act_stuck _ _ (mt writeEnabled_iff.mp h)⟩
  refine (onSystem_act _ _ (writeEnabled_iff.mpr ⟨hp, ha, hw⟩)).trans ?_
  rw [mLoseEffect, ovrWord_eq]
  rfl

/-! ### The master's read (R175) -/

/-- A full STG is its byte. -/
theorem stg_eq_of_full {s : System n} (h : s.stg.full = true) : s.stg = ⟨true, s.stg.data⟩ := by rw [← h]

theorem takeMove_rd_stuck {s : State} (a : Ack) (h : ¬readEnabled s.toSystem = true) :
    takeMove (.rd a) s = .fault .notEligible := by
  rw [takeMove_rd]
  exact onSystem_act_stuck _ _ h

/-- Settles O26: the step M.rd observes the staged byte, and each answer has its own effect. -/
theorem masterReadTakesStagedByte : Obligations.MasterReadTakesStagedByte := by
  refine ⟨fun s hp ha hr hf hm => ?_, fun s a h => takeMove_rd_stuck a (mt readEnabled_iff.mp h)⟩
  have he : readEnabled s.toSystem = true := readEnabled_iff.mpr ⟨hp, ha, hr, hf, hm⟩
  have hs := stg_eq_of_full hf
  rw [takeMove_rd_next .ack he, takeMove_rd_next .nack he, mRdEffect_ack hs, mRdEffect_nack hs, nackWord_eq]
  exact ⟨rfl, rfl⟩

/-! ### The master's stop (R176) -/

theorem mStopEffect_of_addressed {s : System n} (h : s.addressed = true) :
    mStopEffect s = { s with pend := stopWord, addressed := false } := if_pos h

theorem takeMove_stop {s : State} (h : s.pend = 0) :
    takeMove .stop s = .next { s with toSystem := mStopEffect s.toSystem } :=
  onSystem_act _ _ (busFree_iff.mpr h)

theorem takeMove_stop_of_held {s : State} (h : s.pend ≠ 0) : takeMove .stop s = .fault .notEligible :=
  onSystem_act_stuck _ _ (not_busFree h)

/-- Settles O28, by ADDRESSED. -/
theorem masterStop : Obligations.MasterStop := by
  refine ⟨fun s hp ha => ?_, fun s hp ha => ?_, fun s => takeMove_stop_of_held⟩
  · rw [takeMove_stop hp, mStopEffect_of_addressed ha, stopWord_eq]
  · rw [takeMove_stop hp, mStopEffect_of_not_addressed ha]

/-! ### The converter (R177, R178) -/

theorem finishEnabled_iff {s : System n} : finishEnabled s = true ↔ s.conv.st = .busy := beq_iff_eq

theorem convFailEnabled_iff {c : Config} {s : System n} :
    convFailEnabled c s = true ↔ c.convCanFail = true ∧ s.conv.st = .busy := by
  simp [convFailEnabled, and_comm]

/-- Settles O29: each step by its condition; CONV_CAN_FAIL is false on this hardware. -/
theorem converterSteps : Obligations.ConverterSteps := by
  refine ⟨fun s v => takeMove_finish_of_busy v, fun s v h => ?_, fun s => ?_, fun c s hc hb => ?_, fun c s h => ?_⟩
  · exact onSystem_act_stuck _ _ (mt finishEnabled_iff.mp h)
  · exact onSystem_act_stuck _ _ fun h => Bool.noConfusion (convFailEnabled_iff.mp h).1
  · exact if_pos (convFailEnabled_iff.mpr ⟨hc, hb⟩)
  · exact if_neg (mt convFailEnabled_iff.mp h)

/-! ### One condition at a time (R179) -/

theorem not_writeEnabled {s : System n} (h : s.pend ≠ 0) : ¬writeEnabled s = true :=
  fun he => h (writeEnabled_iff.mp he).1

theorem not_readEnabled {s : System n} (h : s.pend ≠ 0) : ¬readEnabled s = true :=
  fun he => h (readEnabled_iff.mp he).1

theorem readFrame_stuck {s : System n} (high : Bool) (d : Byte) (a : Ack) (h : ¬readEnabled s = true) :
    readFrame high d a s = .fault .notEligible := by
  unfold readFrame
  split
  · exact if_neg h
  · rfl

@[simp] theorem endConversion_pend (c : Config) (v : Half) (s : System n) : (endConversion c v s).pend = s.pend :=
  sameOutside_endConversion c v s .pend (by simp)

@[simp] theorem rxEffect_pend (b : Byte) (s : System n) : (rxEffect b s).pend = pendNone := by
  unfold rxEffect
  split <;> rfl

@[simp] theorem amREffect_pend (c : Config) (s : System n) : (amREffect c s).pend = pendNone := by
  rw [amREffect, rewind_eq]
  rfl

/-- A held condition's service clears it (R100). -/
theorem instrEffect_pend_of_held {i : Instr} (c : Config) (s : System n) (h : heldInPend i = true) :
    (instrEffect c i s).pend = pendNone := by
  cases i with
  | amW | stop | nack | ovr => rfl
  | amR => exact amREffect_pend c s
  | rx b => exact rxEffect_pend b s
  | txr | done | fail | rearm | reset | busAddrW | busAddrR | busSel | busResLo | busResHi => cases h

/-- R179: while a condition is held, a step of the whole system leaves it or clears it. -/
theorem SystemStep.pend_of_held {c : Config} {s t : System c.n} (hst : SystemStep c s t) (h : s.pend ≠ 0) :
    t.pend = s.pend ∨ t.pend = 0 := by
  cases hst with
  | amW | stop | nack | ovr | reset => exact .inr rfl
  | amR => exact .inr (amREffect_pend c s)
  | rx b => exact .inr (rxEffect_pend b s)
  | txr => rw [txrEffect, sendNext_eq]; exact .inl rfl
  | done | fail => exact .inl (endConversion_pend _ _ _)
  | rearm | finish | convFail => exact .inl rfl
  | addr _ _ hb | masterStop hb => exact absurd hb (not_busFree h)
  | wr _ hw | lose hw => exact absurd hw (not_writeEnabled h)
  | rd _ hr => exact absurd hr (not_readEnabled h)

/-- Settles O45: every bus-engine step asks for PEND = NONE, and no service and no converter step raises a condition. -/
theorem oneBusConditionAtATime : Obligations.OneBusConditionAtATime := by
  refine ⟨fun s c d a x y h => ?_, fun m s t h hm => (moves_of_takeMove hm).1.pend_of_held h⟩
  have hframe (high : Bool) : onSystem (readFrame high d a) s = .fault .notEligible := by
    rw [onSystem, readFrame_stuck high d a (not_readEnabled h)]
  have hwrite := not_writeEnabled h
  obtain ⟨-, -, hheld, -, -⟩ := addressPhase
  obtain ⟨hbusW, hbusR, haddr⟩ := hheld s h
  exact ⟨haddr x y, hbusW, hbusR, onSystem_act_stuck _ _ hwrite, hframe false, hframe true,
    onSystem_act_stuck _ _ hwrite, takeMove_rd_stuck a (not_readEnabled h), takeMove_stop_of_held h⟩

/-! ### A stretched read (R188) -/

/-- A stretched state in the words of R175 and R188. -/
theorem stretched_iff {s : System n} :
    stretched s = true
      ↔ (eligible s = none ∧ s.conv.st = .idle)
        ∧ s.addressed = true ∧ s.phase.isRead = true ∧ s.stg.full = false ∧ s.mnack = false := by
  simp [stretched, atRest, clockHeld, and_assoc]

/-- A stretched read is no write. -/
theorem not_writeEnabled_of_isRead {s : System n} (h : s.phase.isRead = true) : ¬writeEnabled s = true := by
  intro he
  obtain ⟨-, -, hw | hw⟩ := writeEnabled_iff.mp he <;> rw [hw] at h <;> cases h

/-- With nothing staged there is nothing to read. -/
theorem not_readEnabled_of_empty {s : System n} (h : s.stg.full = false) : ¬readEnabled s = true := by
  intro he
  obtain ⟨-, -, -, hf, -⟩ := readEnabled_iff.mp he
  rw [hf] at h
  cases h

/-- With no service eligible, the only event that a trace can go on with is `reset` (R86). -/
theorem eq_resetWord_of_next {w : EventWord} {s t : State} (he : eligible s.toSystem = none)
    (h : takeMove (.code (.event32 w)) s = .next t) : w = resetWord := by
  rcases hw : decodeEvent w with _ | i
  · rw [takeMove_word_of_decodeEvent_none hw] at h
    cases h
  · have henc := encode_of_decodeEvent hw
    rw [takeMove_code (show decode (.event32 w) = some i from hw)] at h
    obtain rfl | hi := (instrAccepted_iff_of_event henc _).mp (exec_next_iff.mp h).1
    · exact (Code.event32.inj henc).symm
    · rw [he] at hi
      cases hi

/-- Settles O46, move by move: no service is eligible, no conversion is in flight, and no data byte can be written or read. -/
theorem onlyTheMasterEndsAStretch : Obligations.OnlyTheMasterEndsAStretch := by
  intro m s t hst h
  obtain ⟨⟨he, hidle⟩, -, hread, hempty, -⟩ := stretched_iff.mp hst
  cases m with
  | stop => exact .inl rfl
  | service => simp [takeMove, takeService, he] at h
  | lose b => exact absurd (onSystem_act_next.mp h).1 (not_writeEnabled_of_isRead hread)
  | rd a => exact absurd (takeMove_rd_next_iff.mp h).1 (not_readEnabled_of_empty hempty)
  | finish v =>
    have hbusy := finishEnabled_iff.mp (onSystem_act_next.mp h).1
    simp [hidle] at hbusy
  | convFail =>
    have hfail := convFailEnabled_iff.mp (onSystem_act_next.mp h).1
    simp [hidle] at hfail
  | code c =>
    cases c with
    | event32 w => exact .inr (.inr (by rw [eq_resetWord_of_next he h, resetWord_eq]))
    | busAddressByte b => exact .inr (.inl ⟨b, rfl⟩)
    | busWriteDataByte b => exact absurd (onSystem_act_next.mp h).1 (not_writeEnabled_of_isRead hread)
    | busReadDataByte0 d k | busReadDataByte1 d k =>
      obtain ⟨⟨-, -, hr⟩, -⟩ := onSystem_readFrame_next.mp h
      exact absurd hr (not_readEnabled_of_empty hempty)

end Sys2Proof.Machine

end

/-! ### Proofs of the environment family: the master's transactions (R94, R182-R187) -/

section

namespace Sys2Proof.Machine

/-! ### Runs with their trace (R86) -/

/-- The moves can be taken in order, lead from `s` to `t`, and are recorded as `ws` (R86). -/
structure Recorded (ms : List Move) (s t : State) (ws : List EventWord) : Prop where
  run : takeMoves ms s = .next t
  trace : traceOf ms s = ws

theorem takeMoves_append {ms : List Move} {s t : State} (h : takeMoves ms s = .next t) (ms' : List Move) :
    takeMoves (ms ++ ms') s = takeMoves ms' t := by
  induction ms generalizing s with
  | nil => cases h; rfl
  | cons m ms ih =>
    obtain ⟨u, hu, hrest⟩ := takeMoves_cons_next.mp h
    rw [List.cons_append, takeMoves_cons hu, ih hrest]

theorem traceOf_append {ms : List Move} {s t : State} (h : takeMoves ms s = .next t) (ms' : List Move) :
    traceOf (ms ++ ms') s = traceOf ms s ++ traceOf ms' t := by
  induction ms generalizing s with
  | nil => cases h; rfl
  | cons m ms ih =>
    obtain ⟨u, hu, hrest⟩ := takeMoves_cons_next.mp h
    rw [List.cons_append, traceOf_cons hu, traceOf_cons hu, ih hrest, List.append_assoc]

/-- Runs are put together, and so are their traces. -/
theorem Recorded.append {ms ms' : List Move} {s t u : State} {ws ws' : List EventWord} (h : Recorded ms s t ws)
    (h' : Recorded ms' t u ws') : Recorded (ms ++ ms') s u (ws ++ ws') where
  run := by rw [takeMoves_append h.run, h'.run]
  trace := by rw [traceOf_append h.run, h.trace, h'.trace]

theorem Recorded.nil (s : State) : Recorded [] s s [] := ⟨rfl, rfl⟩

/-- A run may go on from where another has ended. -/
theorem Recorded.goOn {ms : List Move} {s t : State} {ws : List EventWord} (_ : Recorded ms s t ws) : Recorded [] t t [] :=
  .nil t

theorem recorded_of_takeMove {m : Move} {s t : State} (h : takeMove m s = .next t) :
    Recorded [m] s t (servicedWord m s.toSystem).toList where
  run := takeMoves_cons h
  trace := by rw [traceOf_cons h, traceOf_nil, List.append_nil]

/-- The core's move takes an event that answers a next state, and is recorded as its word (R86, R208). -/
theorem recorded_service {i : Instr} {w : EventWord} {s t : State} (hw : decodeEvent w = some i) (hr : i ≠ .reset)
    (h : exec i s = .next t) : Recorded [.service] s t [w] := by
  have henc := encode_of_decodeEvent hw
  have he : eligible s.toSystem = some i :=
    ((instrAccepted_iff_of_event henc _).mp (exec_next_iff.mp h).1).resolve_left hr
  have hword : servicedWord .service s.toSystem = some w := by
    rw [servicedWord, he]
    exact wordOf_eq_some.mpr henc
  have hrun := recorded_of_takeMove ((takeMove_service he).trans h)
  rwa [hword] at hrun

/-! ### What `txr` stages, by the cursor (R104) -/

theorem txrEffect_zero {n : Nat} {s : System n} (h : s.cur = .zero) :
    txrEffect s
      = { s with txreq := false, phase := .transmitting, stg := ⟨true, s.res.extractLsb' 0 8⟩, cur := .one } :=
  sendNext_zero (s := { s with txreq := false, phase := .transmitting }) h

theorem txrEffect_one {n : Nat} {s : System n} (h : s.cur = .one) :
    txrEffect s
      = { s with txreq := false, phase := .transmitting, stg := ⟨true, s.res.extractLsb' 8 8⟩, cur := .done } :=
  sendNext_one (s := { s with txreq := false, phase := .transmitting }) h

theorem txrEffect_done {n : Nat} {s : System n} (h : s.cur = .done) :
    txrEffect s = { s with txreq := false, phase := .transmitting } :=
  sendNext_done (s := { s with txreq := false, phase := .transmitting }) h

theorem txrEffect_notReady {n : Nat} {s : System n} (h : s.cur = .notReady) :
    txrEffect s = { s with txreq := false, phase := .transmitting } :=
  sendNext_notReady (s := { s with txreq := false, phase := .transmitting }) h

/-! ### The parts of a transaction, each with its services -/

/-- A move that the core does not record, then the service that it has made eligible. -/
theorem Recorded.moveAndService {ms : List Move} {r s u t : State} {ws : List EventWord} (h : Recorded ms r s ws) {m : Move}
    {i : Instr} {w : EventWord} (hm : takeMove m s = .next u) (hrec : servicedWord m s.toSystem = none)
    (hw : decodeEvent w = some i) (hr : i ≠ .reset) (hi : exec i u = .next t) :
    Recorded (ms ++ [m, .service]) r t (ws ++ [w]) := by
  have hmove := recorded_of_takeMove hm
  rw [hrec] at hmove
  exact h.append (hmove.append (recorded_service hw hr hi))

/-- R177, R145: the awaited conversion finishes and is captured, with the low byte staged at once. -/
theorem Recorded.finishAndCapture {ms : List Move} {r s : State} {ws : List EventWord} (h : Recorded ms r s ws) (v : Half)
    (hbusy : s.conv.st = .busy) (hc : s.cur = .notReady) :
    Recorded (ms ++ [.finish v, .service]) r
      { s with res := v, cur := .one, stg := ⟨true, v.extractLsb' 0 8⟩, conv := ⟨.idle, s.conv.ch, v⟩ }
      (ws ++ [0x7000#16 ++ v]) := by
  obtain ⟨hw, hnext, -⟩ := conversionCompleteService
  exact h.moveAndService (takeMove_finish_of_busy v hbusy) rfl (hw v) nofun (hnext _ v rfl rfl hc)

section Parts

variable {ms : List Move} {r s : State} {ws : List EventWord} (h : Recorded ms r s ws) (hp : s.pend = 0)
  (heoc : s.conv.st ≠ .eoc) (herr : s.conv.st ≠ .err)
include h hp heoc herr

namespace Recorded

/-- R172, R101: the device is addressed for a write. -/
theorem addressWrite (ha : s.acken = true) :
    Recorded (ms ++ [moveAddr 0x50 .w, .service]) r
      { s with mobs := s.mobs ++ [.ack], addressed := true, mnack := false, phase := .addrW, txreq := false }
      (ws ++ [0x10000000]) := by
  obtain ⟨hack, -⟩ := addressPhase
  obtain ⟨haddr, -⟩ := hack s hp ha
  obtain ⟨hw, hnext, -⟩ := addressMatchWriteService
  have hrun := h.moveAndService ((takeMove_moveAddr_w s).trans haddr) rfl hw nofun (hnext _ rfl heoc herr)
  rwa [← hp] at hrun

/-- R172, R102: the device is addressed for a read; a ready result is read from byte 0. -/
theorem addressRead (ha : s.acken = true) :
    Recorded (ms ++ [moveAddr 0x50 .r, .service]) r
      { s with
        mobs := s.mobs ++ [.ack], addressed := true, mnack := false, phase := .addrR, txreq := true
        stg := ⟨false, s.stg.data⟩, cur := if s.cur = .notReady then .notReady else .zero }
      (ws ++ [0x10000001]) := by
  obtain ⟨hack, -⟩ := addressPhase
  obtain ⟨-, haddr⟩ := hack s hp ha
  obtain ⟨hw, hnext, -⟩ := addressMatchReadService
  have hrun := h.moveAndService ((takeMove_moveAddr_r s).trans haddr) rfl hw nofun (hnext _ rfl heoc herr)
  rwa [← hp] at hrun

/-- R173, R103: a valid selector arms its channel. -/
theorem selectValid (hadd : s.addressed = true) (hph : s.phase = .addrW) {c : Byte} (hc : c.toNat ≤ 6) :
    Recorded (ms ++ [moveWr c, .service]) r
      { s with
        mobs := s.mobs ++ [.ack], sel := c, phase := .receiving, chen := onehot 7 c.toNat, cur := .notReady
        conv := { s.conv with st := .busy, ch := c } }
      (ws ++ [0x200000#24 ++ c]) := by
  obtain ⟨hwr, -⟩ := writeDataByte
  obtain ⟨hw, hnext, -, -⟩ := byteReceivedService
  have hrun := h.moveAndService (m := moveWr c) (hwr s c hp hadd (.inl hph)) rfl (hw c) nofun
    (hnext _ c rfl heoc herr hc)
  rwa [← hp] at hrun

/-- R173, R103: an invalid selector makes the sentinel ready at once. -/
theorem selectInvalid (hadd : s.addressed = true) (hph : s.phase = .addrW) {c : Byte} (hc : 7 ≤ c.toNat) :
    Recorded (ms ++ [moveWr c, .service]) r
      { s with mobs := s.mobs ++ [.ack], sel := c, phase := .receiving, res := 0xFFFF, cur := .zero }
      (ws ++ [0x200000#24 ++ c]) := by
  obtain ⟨hwr, -⟩ := writeDataByte
  obtain ⟨hw, -, hnext, -⟩ := byteReceivedService
  have hrun := h.moveAndService (m := moveWr c) (hwr s c hp hadd (.inl hph)) rfl (hw c) nofun
    (hnext _ c rfl heoc herr hc)
  rwa [← hp] at hrun

/-- R176, R105, R108: the stop of the core's transaction, and the re-arm. -/
theorem stopAndRearm (hadd : s.addressed = true) :
    Recorded (ms ++ [.stop, .service, .service]) r { s with addressed := false, phase := .idle, acken := true }
      (ws ++ [0x40000000, 0x90000000]) := by
  obtain ⟨hmaster, -⟩ := masterStop
  obtain ⟨hstop, hnext, -⟩ := stopService
  obtain ⟨hrearm, hnext', -⟩ := rearmService
  have hstopped := (Recorded.nil s).moveAndService (hmaster s hp hadd) rfl hstop nofun (hnext _ rfl heoc herr)
  have hrun := hstopped.append (recorded_service hrearm nofun (hnext' _ rfl rfl heoc herr))
  rw [← hp] at hrun
  exact h.append hrun

/-- R175, R106: the master takes the staged byte and answers NACK. -/
theorem readNack (hadd : s.addressed = true) (hph : s.phase = .addrR ∨ s.phase = .transmitting)
    (hfull : s.stg.full = true) (hm : s.mnack = false) :
    Recorded (ms ++ [.rd .nack, .service]) r
      { s with mobs := s.mobs ++ [.byte s.stg.data], stg := ⟨false, s.stg.data⟩, mnack := true }
      (ws ++ [0x50000000]) := by
  obtain ⟨hrd, -⟩ := masterReadTakesStagedByte
  obtain ⟨-, hnack⟩ := hrd s hp hadd hph hfull hm
  obtain ⟨hw, -, hnext, -⟩ := busErrorServices
  have hrun := h.moveAndService hnack rfl hw nofun (hnext _ rfl heoc herr)
  rwa [← hp] at hrun

/-- R104: a requested byte is served. -/
theorem serveRequest (hph : s.phase = .addrR ∨ s.phase = .transmitting) (hempty : s.stg.full = false)
    (hreq : s.txreq = true) :
    Recorded (ms ++ [.service]) r { s with toSystem := txrEffect s.toSystem } (ws ++ [0x30000000]) := by
  have hw : decodeEvent 0x30000000 = some .txr := decodeEvent_txrWord
  have he := eligible_txr_iff.mpr ⟨hp, heoc, herr, hph, hempty, hreq⟩
  exact h.append (recorded_service hw nofun (exec_event_of_eligible hw he))

/-- R175, R104: the master takes the staged byte, answers ACK, and so requests the next. -/
theorem readAck (hadd : s.addressed = true) (hph : s.phase = .addrR ∨ s.phase = .transmitting)
    (hfull : s.stg.full = true) (hm : s.mnack = false) :
    Recorded (ms ++ [.rd .ack, .service]) r
      { s with
        toSystem := txrEffect { s.toSystem with
          mobs := s.mobs ++ [.byte s.stg.data], stg := ⟨false, s.stg.data⟩, txreq := true } }
      (ws ++ [0x30000000]) := by
  obtain ⟨hrd, -⟩ := masterReadTakesStagedByte
  obtain ⟨hack, -⟩ := hrd s hp hadd hph hfull hm
  exact h.append ((recorded_of_takeMove hack).serveRequest hp heoc herr hph rfl rfl)

/-- R183: from byte 0 staged to the end of `READ2`. -/
theorem restOfRead (hadd : s.addressed = true) (hph : s.phase = .addrR ∨ s.phase = .transmitting)
    (hfull : s.stg.full = true) (hm : s.mnack = false) (hc : s.cur = .one) :
    Recorded (ms ++ [.rd .ack, .service, .rd .nack, .service, .stop, .service, .service]) r
      { s with
        mobs := s.mobs ++ [.byte s.stg.data] ++ [.byte (s.res.extractLsb' 8 8)]
        stg := ⟨false, s.res.extractLsb' 8 8⟩, cur := .done, txreq := false, mnack := true, addressed := false
        phase := .idle, acken := true }
      (ws ++ [0x30000000, 0x50000000, 0x40000000, 0x90000000]) := by
  have hlow := (Recorded.nil s).readAck hp heoc herr hadd hph hfull hm
  rw [txrEffect_one (by exact hc)] at hlow
  have hhigh := hlow.readNack hp heoc herr hadd (.inr rfl) rfl hm
  exact h.append (hhigh.stopAndRearm hp heoc herr hadd)

end Recorded

end Parts

/-! ### Whole transactions -/

/-- Settles O47: the address phase, the selector of either kind, and the stop, each with its services. -/
theorem writeTransaction : Obligations.WriteTransaction := by
  intro s c hp ha heoc herr
  have haddr := (Recorded.nil s).addressWrite hp heoc herr ha
  obtain hc | hc : c.toNat ≤ 6 ∨ 7 ≤ c.toNat := by omega
  · have hall := (haddr.selectValid hp heoc herr rfl rfl hc).stopAndRearm hp nofun nofun rfl
    exact ⟨_, hall.run, rfl, rfl, rfl, hp, rfl, by simp, fun _ => ⟨rfl, rfl, rfl, rfl⟩, fun h => by omega, hall.trace⟩
  · have hall := (haddr.selectInvalid hp heoc herr rfl rfl hc).stopAndRearm hp heoc herr rfl
    exact ⟨_, hall.run, rfl, rfl, rfl, hp, rfl, by simp, fun h => by omega, fun _ => ⟨rfl, rfl, rfl, rfl⟩, hall.trace⟩

/-- Settles O48: the address phase rewinds the ready result, so byte 0 is the first to be staged. -/
theorem readTransaction : Obligations.ReadTransaction := by
  intro s hp ha heoc herr hcur
  have haddr := (Recorded.nil s).addressRead hp heoc herr ha
  rw [if_neg hcur] at haddr
  have hfirst := haddr.serveRequest hp heoc herr (.inl rfl) rfl rfl
  rw [txrEffect_zero rfl] at hfirst
  have hall := hfirst.restOfRead hp heoc herr rfl (.inr rfl) rfl rfl rfl
  exact ⟨_, hall.run, by simp, rfl, rfl, rfl, rfl, rfl⟩

/-- Settles O49: the first request finds nothing ready; the completion is captured with its low byte staged at once. -/
theorem selectThenReadTransaction : Obligations.SelectThenReadTransaction := by
  intro s c v hp ha heoc herr hc
  have hsel := ((Recorded.nil s).addressWrite hp heoc herr ha).selectValid hp heoc herr rfl rfl hc
  have hreq := (hsel.addressRead hp nofun nofun ha).serveRequest hp nofun nofun (.inl rfl) rfl rfl
  rw [txrEffect_notReady rfl] at hreq
  have hread := (hreq.goOn.finishAndCapture v rfl rfl).restOfRead hp nofun nofun rfl (.inr rfl) rfl rfl rfl
  exact ⟨_, _, hreq.run, rfl, rfl, hread.run, by simp, rfl, rfl, rfl⟩

/-- At rest (R188): no conversion has ended, nothing is held, no byte is requested, and the core is not STOPPED. -/
theorem eligible_eq_none {n : Nat} {s : System n} (hc : conversionPending s = false) (hp : s.pend = pendNone)
    (hr : readyToTransmit s = false) (hs : s.phase ≠ .stopped) : eligible s = none := by
  rw [eligible_of_not_held hc (by simp [hp])]
  simp [hr, hs]

/-- Settles O50: at DONE the request of a third byte is served with none. -/
theorem thirdByteIsNeverSupplied : Obligations.ThirdByteIsNeverSupplied := by
  intro s hp hadd hph hfull hm hc hidle
  have heoc : s.conv.st ≠ .eoc := by simp [hidle]
  have herr : s.conv.st ≠ .err := by simp [hidle]
  have hall := (Recorded.nil s).readAck hp heoc herr hadd hph hfull hm
  rw [txrEffect_done (by exact hc)] at hall
  have hnone := conversionPending_eq_false.mpr ⟨heoc, herr⟩
  refine ⟨_, hall.run, stretched_iff.mpr ⟨⟨eligible_eq_none hnone hp ?_ nofun, hidle⟩, hadd, rfl, rfl, hm⟩, rfl, rfl, hc⟩
  simp [readyToTransmit]

/-- Settles O51: no selector is sent and no byte read between the services of the transaction. -/
theorem probeChangesNoRegister : Obligations.ProbeChangesNoRegister := by
  intro s hp ha heoc herr
  have hall := ((Recorded.nil s).addressWrite hp heoc herr ha).stopAndRearm hp heoc herr rfl
  rw [← ha] at hall
  exact hall.run

end Sys2Proof.Machine

end

/-! ### Proofs of the environment family: fair runs (R180) -/

section

namespace Sys2Proof.Machine

/-! ### What every run keeps -/

/-- A point of a run: nothing happens, or one system step. -/
theorem IsRun.step_cases {moves : Nat → Option Move} {run : Nat → State} (h : IsRun moves run) (k : Nat) :
    run (k + 1) = run k ∨ SystemStep Config.esplant (run k).toSystem (run (k + 1)).toSystem := by
  have hk := h k
  split at hk
  · exact .inr (moves_of_takeMove hk).1
  · exact .inl hk

/-- The named move is the one that is taken. -/
theorem IsRun.takeMove_next {moves : Nat → Option Move} {run : Nat → State} (h : IsRun moves run) {k : Nat} {m : Move}
    (hm : moves k = some m) : takeMove m (run k) = .next (run (k + 1)) := by
  have hk := h k
  rwa [hm] at hk

/-- R38, R39: the invariant holds all along a run. -/
theorem IsRun.invariant {moves : Nat → Option Move} {run : Nat → State} (h : IsRun moves run)
    (h0 : Invariant (run 0).toSystem) (k : Nat) : Invariant (run k).toSystem := by
  induction k with
  | zero => exact h0
  | succ k ih =>
    obtain hsame | hstep := h.step_cases k
    · rwa [hsame]
    · exact hstep.invariant ih

/-! ### An awaited result (R183) -/

/-- With a result awaited the capture gate is open (R144), so the end of the conversion makes the result ready. -/
theorem endConversion_cur_of_awaited {n : Nat} {c : Config} {s : System n} (v : Half) (h : s.cur = .notReady) :
    (endConversion c v s).cur = .one := by
  rw [endConversion_open v (captureOk_iff.mpr (.inl h))]

theorem conversionPending_iff {n : Nat} {s : System n} :
    conversionPending s = true ↔ s.conv.st = .eoc ∨ s.conv.st = .err := by
  simp [conversionPending]

/-- R205, R208: an ended conversion has the one eligible service, whatever else the state holds, and with the result awaited
that service makes it ready. -/
theorem exists_endingService {n : Nat} {s : System n} (h : conversionPending s = true) :
    ∃ i, (∀ t : System n, t.conv = s.conv → eligible t = some i)
      ∧ ∀ (c : Config) (t : System n), t.cur = .notReady → (instrEffect c i t).cur = .one := by
  obtain heoc | herr := conversionPending_iff.mp h
  · exact ⟨.done s.conv.val, fun t ht => eligible_done.mpr (by simp [ht, heoc]),
      fun c t hc => endConversion_cur_of_awaited _ hc⟩
  · exact ⟨.fail, fun t ht => eligible_fail.mpr (by simp [ht, herr]), fun c t hc => endConversion_cur_of_awaited _ hc⟩

/-- R208: no bus-side service is eligible while an ended conversion waits. -/
theorem eligible_of_conversionPending {n : Nat} {s : System n} {i : Instr} (h : conversionPending s = true)
    (he : eligible s = some i) : i = .done s.conv.val ∨ i = .fail := by
  rcases eligible_cases he with ⟨-, hi⟩ | ⟨-, hi⟩ | ⟨hc, -⟩ | ⟨hc, -⟩ | ⟨hc, -⟩
  · exact .inl hi
  · exact .inr hi
  all_goals simp [h] at hc

/-- R208: while an ended conversion waits for its service and the result stays awaited, CONV stays. -/
theorem SystemStep.conv_of_pending {c : Config} {s t : System c.n} (hst : SystemStep c s t)
    (hp : conversionPending s = true) (hs : s.cur = .notReady) (ht : t.cur = .notReady) : t.conv = s.conv := by
  have hnotBusy : s.conv.st ≠ .busy := by
    intro hb
    simp [conversionPending, hb] at hp
  cases hst with
  | amW he | amR he | rx _ he | txr he | stop he | nack he | ovr he | rearm he =>
    obtain hi | hi := eligible_of_conversionPending hp he <;> cases hi
  | done | fail => exact nomatch (endConversion_cur_of_awaited _ hs).symm.trans ht
  | reset => cases ht
  | finish _ hb => exact absurd (finishEnabled_iff.mp hb) hnotBusy
  | convFail hb => exact absurd (convFailEnabled_iff.mp hb).2 hnotBusy
  | wr | lose => rfl
  | addr a d => unfold mAddrEffect; split <;> rfl
  | rd a => cases a <;> rfl
  | masterStop => unfold mStopEffect; split <;> rfl

/-- The core's move and the event word of the eligible service run it. -/
theorem takeMove_of_takesService {m : Move} {i : Instr} {s : State} (hm : TakesService m i)
    (he : eligible s.toSystem = some i) : takeMove m s = exec i s := by
  obtain rfl | rfl := hm
  · exact takeMove_service he
  · exact takeMove_code (decodeReadsBackEncode i) s

section FairRun

variable {moves : Nat → Option Move} {run : Nat → State} (hrun : IsRun moves run)
include hrun

/-- While the result stays awaited, an ended conversion keeps waiting for its service. -/
theorem IsRun.conv_eq_of_pending {k : Nat} (hcur : ∀ j, k ≤ j → (run j).cur = .notReady)
    (hp : conversionPending (run k).toSystem = true) (j : Nat) (hj : k ≤ j) : (run j).conv = (run k).conv := by
  induction j, hj using Nat.le_induction with
  | base => rfl
  | succ j hj ih =>
    obtain hsame | hstep := hrun.step_cases j
    · rw [hsame, ih]
    · have hpj : conversionPending (run j).toSystem = true := by simpa [conversionPending, ih] using hp
      rw [hstep.conv_of_pending hpj (hcur j hj) (hcur (j + 1) (by omega)), ih]

/-- R180: the service of an ended conversion is taken, so a result does not stay awaited after the end. -/
theorem IsRun.not_pending_of_awaited (hfair : Fair moves run) {k : Nat} (hcur : ∀ j, k ≤ j → (run j).cur = .notReady) :
    conversionPending (run k).toSystem = false := by
  rw [← Bool.not_eq_true]
  intro hp
  obtain ⟨hserved, -⟩ := hfair
  obtain ⟨i, heligible, hready⟩ := exists_endingService hp
  have he : ∀ j, k ≤ j → eligible (run j).toSystem = some i :=
    fun j hj => heligible _ (hrun.conv_eq_of_pending hcur hp j hj)
  obtain ⟨j, m, hj, hm, htakes⟩ := hserved k i he
  have hexec := hrun.takeMove_next hm
  rw [takeMove_of_takesService htakes (he j hj)] at hexec
  have hone : (run (j + 1)).cur = .one := by
    obtain ⟨-, heffect⟩ := exec_next_iff.mp hexec
    rw [heffect]
    exact hready _ _ (hcur j hj)
  exact nomatch hone.symm.trans (hcur (j + 1) (by omega))

end FairRun

/-- Settles O58: were the result awaited for good, its conversion (INV2) would be in flight for good, since an ended one is
serviced; but fairness makes it finish. -/
theorem awaitedResultArrives : Obligations.AwaitedResultArrives := by
  intro moves run hrun hfair hinv k hk
  by_contra hnever
  push Not at hnever
  have hcur (j : Nat) (hj : k ≤ j) : (run j).cur = .notReady := by
    obtain rfl | hlt := hj.eq_or_lt
    · exact hk
    · exact hnever j hlt
  have hpending (j : Nat) (hj : k ≤ j) : conversionPending (run j).toSystem = false :=
    hrun.not_pending_of_awaited hfair fun l hl => hcur l (hj.trans hl)
  have hbusy (j : Nat) (hj : k ≤ j) : (run j).conv.st = .busy := by
    obtain ⟨heoc, herr⟩ := conversionPending_eq_false.mp (hpending j hj)
    obtain ⟨hidle, -⟩ := (hrun.invariant (System.inv_iff.mp hinv) j).awaited (hcur j hj)
    cases hst : (run j).conv.st <;> simp_all
  obtain ⟨-, hfinishes⟩ := hfair
  obtain ⟨j, v, hj, hm⟩ := hfinishes k hbusy
  have hnext := hrun.takeMove_next hm
  rw [takeMove_finish_of_busy v (hbusy j hj)] at hnext
  have hend := hbusy (j + 1) (by omega)
  rw [← Host.Outcome.next.inj hnext] at hend
  cases hend

end Sys2Proof.Machine

end

/-! ### Proofs of the environment family: the master may stop at any point (R180, R188) -/

section

namespace Sys2Proof.Machine

variable {n : Nat}

/-! ### The work that is left when the master has stopped -/

/-- The steps that a conversion still brings: to finish, and to be serviced. -/
def ConvStatus.stepsLeft : ConvStatus → Nat
  | .idle => 0
  | .busy => 2
  | .eoc | .err => 1

@[simp] theorem ConvStatus.stepsLeft_idle : ConvStatus.idle.stepsLeft = 0 := rfl
@[simp] theorem ConvStatus.stepsLeft_busy : ConvStatus.busy.stepsLeft = 2 := rfl
@[simp] theorem ConvStatus.stepsLeft_eoc : ConvStatus.eoc.stepsLeft = 1 := rfl
@[simp] theorem ConvStatus.stepsLeft_err : ConvStatus.err.stepsLeft = 1 := rfl

/-- The steps left beside a held condition: those of the conversion, a requested byte, the re-arm. -/
def unheldWork (s : System n) : Nat :=
  s.conv.st.stepsLeft + s.txreq.toNat + (decide (s.phase = .stopped)).toNat

/-- A held condition counts for more than all that its service can leave. -/
def conditionWork (w : EventWord) : Nat := if w = pendNone then 0 else 5

/-- A bound on the core services and finishing conversions to come, with no bus step among them. -/
def workLeft (s : System n) : Nat := conditionWork s.pend + unheldWork s

theorem unheldWork_le (s : System n) : unheldWork s ≤ 4 := by
  have hconv : s.conv.st.stepsLeft ≤ 2 := by cases s.conv.st <;> decide
  have hreq := s.txreq.toNat_le
  have hphase := (decide (s.phase = .stopped)).toNat_le
  unfold unheldWork
  omega

/-- The service of a held condition clears it, so it leaves less work, whatever it leaves. -/
theorem workLeft_held {i : Instr} (c : Config) {s : System n} (h : heldEvent s.pend = some i) :
    workLeft (instrEffect c i s) < workLeft s := by
  have hcleared := instrEffect_pend_of_held c s (Option.filter_eq_some_iff.mp h).2
  have hheld : s.pend ≠ pendNone := by
    intro hp
    simp [hp] at h
  have hle := unheldWork_le (instrEffect c i s)
  rw [workLeft, workLeft, hcleared, conditionWork, conditionWork, if_pos rfl, if_neg hheld]
  omega

/-- The end of a conversion leaves CONV idle, and the bus side as it was. -/
theorem workLeft_endConversion (c : Config) (v : Half) {s : System n} (h : conversionPending s = true) :
    workLeft (endConversion c v s) < workLeft s := by
  have hone : s.conv.st.stepsLeft = 1 := by
    obtain hst | hst := conversionPending_iff.mp h <;> simp [hst]
  cases hg : captureOk c s
  · rw [endConversion_closed v hg]
    simp [workLeft, unheldWork, hone]
  · rw [endConversion_open v hg]
    simp [workLeft, unheldWork, hone]

/-- Every core service leaves less work than it found. -/
theorem workLeft_service {i : Instr} (c : Config) {s : System n} (h : eligible s = some i) :
    workLeft (instrEffect c i s) < workLeft s := by
  rcases eligible_cases h with ⟨hst, rfl⟩ | ⟨hst, rfl⟩ | ⟨-, hheld⟩ | ⟨-, hr, rfl⟩ | ⟨-, -, hs, rfl⟩
  · exact workLeft_endConversion c _ (conversionPending_iff.mpr (.inl hst))
  · exact workLeft_endConversion c _ (conversionPending_iff.mpr (.inr hst))
  · exact workLeft_held c hheld
  · obtain ⟨-, -, -, hreq⟩ := readyToTransmit_iff.mp hr
    rw [instrEffect, txrEffect, sendNext_eq]
    simp [workLeft, unheldWork, hreq]
    omega
  · simp [workLeft, unheldWork, instrEffect, rearmEffect, hs]

/-- So does a conversion that finishes. -/
theorem workLeft_finish (v : Half) {s : System n} (h : s.conv.st = .busy) :
    workLeft { s with conv := ⟨.eoc, s.conv.ch, v⟩ } < workLeft s := by
  simp [workLeft, unheldWork, h]

/-! ### Going on without the master -/

/-- A move that needs no master: a core service, or a conversion that finishes. -/
def NeedsNoMaster (m : Move) : Prop := m = .service ∨ ∃ v, m = .finish v

/-- While a service is eligible or a conversion is in flight, there is a move without the master, and it leaves less work. -/
theorem exists_move_without_master {s : State} (h : ¬(eligible s.toSystem = none ∧ s.conv.st ≠ .busy)) :
    ∃ m t, NeedsNoMaster m ∧ takeMove m s = .next t ∧ workLeft t.toSystem < workLeft s.toSystem := by
  rcases he : eligible s.toSystem with _ | i
  · have hbusy : s.conv.st = .busy := by simpa [he] using h
    exact ⟨.finish 0, _, .inr ⟨0, rfl⟩, takeMove_finish_of_busy 0 hbusy, workLeft_finish 0 hbusy⟩
  · obtain ⟨w, hw⟩ := wordOf_of_eligible he
    have hexec := exec_event_of_eligible (decodeEvent_of_wordOf he hw) he
    exact ⟨.service, _, .inl rfl, (takeMove_service he).trans hexec, workLeft_service _ he⟩

/-- R188: from every state the core and the converter come to rest without the master, at once if nothing is left to do. -/
theorem exists_rest (s : State) :
    ∃ rest u, takeMoves rest s = .next u ∧ eligible u.toSystem = none ∧ u.conv.st ≠ .busy
      ∧ (∀ m ∈ rest, NeedsNoMaster m) ∧ (eligible s.toSystem = none → s.conv.st ≠ .busy → rest = []) := by
  induction hw : workLeft s.toSystem using Nat.strong_induction_on generalizing s with
  | _ k ih =>
    by_cases hdone : eligible s.toSystem = none ∧ s.conv.st ≠ .busy
    · exact ⟨[], s, rfl, hdone.1, hdone.2, by simp, fun _ _ => rfl⟩
    · obtain ⟨m, t, hm, ht, hless⟩ := exists_move_without_master hdone
      obtain ⟨rest, u, hu, he, hb, hrest, -⟩ := ih _ (hw ▸ hless) t rfl
      exact ⟨m :: rest, u, (takeMoves_cons ht).trans hu, he, hb, List.forall_mem_cons.mpr ⟨hm, hrest⟩,
        fun hnone hidle => absurd ⟨hnone, hidle⟩ hdone⟩

/-- A finite run that goes on passes through the state in which its first part ends. -/
theorem runFrom_append_length {ms : List Move} {s t : State} (h : takeMoves ms s = .next t) (rest : List Move) :
    runFrom (ms ++ rest) s ms.length = t := by
  induction ms generalizing s with
  | nil => cases h; simp
  | cons m ms ih =>
    obtain ⟨u, hu, hms⟩ := takeMoves_cons_next.mp h
    rw [List.cons_append, List.length_cons, runFrom_cons hu, ih hms]

/-- Settles O59: the moves taken, then those that bring the core and the converter to rest, are a fair run. -/
theorem masterMayStopAtAnyPoint : Obligations.MasterMayStopAtAnyPoint := by
  intro ms s t h
  obtain ⟨rest, u, hu, he, hb, hrest, hnil⟩ := exists_rest t
  have hall : takeMoves (ms ++ rest) s = .next u := (takeMoves_append h rest).trans hu
  exact ⟨rest, fun k => (ms ++ rest)[k]?, runFrom (ms ++ rest) s, isRun_runFrom hall,
    fair_of_rest (fun _ hk => runFrom_of_length_le hall hk) he hb, runFrom_zero _ s, runFrom_append_length h rest,
    fun _ => rfl, hrest, hnil⟩

end Sys2Proof.Machine

end

/-! ### Proofs of the exceptions family: the arbiter (R200, R205, R208) -/

section

namespace Sys2Proof.Machine

variable {n : Nat}

/-! ### The eligible service -/

/-- R200: the eligible service has its effect. -/
theorem exec_of_eligible {i : Instr} {s : State} (h : eligible s.toSystem = some i) :
    exec i s = .next { s with toSystem := instrEffect Config.esplant i s.toSystem } := by
  obtain ⟨w, hw⟩ := wordOf_of_eligible h
  exact exec_event_of_eligible (decodeEvent_of_wordOf h hw) h

/-- Settles O38: an eligible service is accepted, and the core's move is that service. -/
theorem eligibleServiceCompletes : Obligations.EligibleServiceCompletes :=
  fun _ _ h => ⟨⟨_, exec_of_eligible h⟩, takeMove_service h⟩

/-! ### The order (R208) -/

/-- The order below the conversion and the bus conditions, in the words of R104 and R108. -/
theorem eligible_of_pend_zero {s : System n} (heoc : s.conv.st ≠ .eoc) (herr : s.conv.st ≠ .err) (hp : s.pend = 0) :
    eligible s =
      if (s.phase = .addrR ∨ s.phase = .transmitting) ∧ s.stg.full = false ∧ s.txreq = true then some .txr
      else if s.phase = .stopped then some .rearm
      else none := by
  have hheld : heldEvent s.pend = none := by rw [hp]; exact heldEvent_pendNone
  rw [eligible_of_not_held (conversionPending_eq_false.mpr ⟨heoc, herr⟩) hheld]
  simp [readyToTransmit_iff, hp, pendNone]

/-- Settles O39: the conversion first, then the condition that PEND holds, then `txr` and `rearm`. -/
theorem arbiterOrder : Obligations.ArbiterOrder := by
  intro n s
  refine ⟨eligible_eoc, eligible_err, fun heoc herr => ?_⟩
  have hheld {i : Instr} {w : EventWord} (hi : heldInPend i = true) (hw : decodeEvent w = some i) (hp : s.pend = w) :
      eligible s = some i := (eligible_held_iff hi hw).mpr ⟨hp, heoc, herr⟩
  exact ⟨hheld rfl (by decide), hheld rfl (by decide),
    fun b hp => hheld rfl (decodeEvent_rxWord b) (hp.trans (rxWord_eq b).symm),
    hheld rfl (by decide), hheld rfl (by decide), hheld rfl (by decide), eligible_of_pend_zero heoc herr⟩

/-- Settles O40: a bus-side service is accepted only where it is eligible, and an ended conversion has the one eligible
service. -/
theorem completionOutranksTheBus : Obligations.CompletionOutranksTheBus := by
  intro s t i hst h
  have hpending : conversionPending s.toSystem = true := conversionPending_iff.mpr hst
  obtain ⟨haccepted, -⟩ := exec_next_iff.mp h
  cases i with
  | amW | amR | rx | txr | stop | nack | ovr | rearm =>
    obtain hi | hi := eligible_of_conversionPending hpending haccepted <;> cases hi
  | done | fail | reset | busAddrW | busAddrR | busSel | busResLo | busResHi => simp

end Sys2Proof.Machine

end

/-! ### Proofs of the exceptions family: the free choice of the next move (R208, R218, log 1, 2) -/

section

namespace Sys2Proof.Machine

theorem possible_iff {m : Move} {s : State} : possible m s = true ↔ ∃ t, takeMove m s = .next t := by
  unfold possible
  split <;> simp_all

/-- A chosen move that is possible is taken. -/
theorem chosenStep_of_possible {m : Move} {s t : State} (h : takeMove m s = .next t) : chosenStep m s = .next t := by
  rw [chosenStep, h]

/-- A chosen move that is not possible leaves the step to the core. -/
theorem chosenStep_of_not_possible {m : Move} {s : State} (h : ¬possible m s = true) : chosenStep m s = waitStep s := by
  rw [possible_iff] at h
  unfold chosenStep
  split <;> simp_all

/-- The core takes its eligible service. -/
theorem waitStep_of_eligible {i : Instr} {s : State} (h : eligible s.toSystem = some i) :
    waitStep s = takeMove .service s := by
  rw [waitStep, h, takeMove_service h]

/-- With nothing eligible the system waits. -/
theorem waitStep_of_none {s : State} (h : eligible s.toSystem = none) : waitStep s = .next s := by
  rw [waitStep, h]

/-- With no move fixed, a step of a well-formed state is a free choice. -/
theorem step_of_no_agenda {s : State} (hw : s.toSystem.wellFormed = true) (ha : s.agenda = []) :
    step s = chosenStep (Config.freeMove s.draws) (countDraw s) := by
  rw [step, guardedStep, if_pos hw, nextStep, ha]

/-- With no move fixed, the step takes the move recorded for it, which is possible; with none recorded it waits, and nothing
is eligible. -/
theorem freeStep_cases {s : State} (hw : s.toSystem.wellFormed = true) (ha : s.agenda = []) :
    (∃ m t, stepMove s = some m ∧ takeMove m (countDraw s) = .next t ∧ step s = .next t)
      ∨ (stepMove s = none ∧ eligible s.toSystem = none ∧ step s = .next (countDraw s)) := by
  rw [step_of_no_agenda hw ha]
  simp only [stepMove, ha]
  by_cases hm : possible (Config.freeMove s.draws) (countDraw s) = true
  · obtain ⟨t, ht⟩ := possible_iff.mp hm
    exact .inl ⟨_, t, if_pos hm, ht, chosenStep_of_possible ht⟩
  · rw [if_neg hm, chosenStep_of_not_possible hm]
    rcases he : eligible s.toSystem with _ | i
    · exact .inr ⟨rfl, rfl, waitStep_of_none he⟩
    · have he' : eligible (countDraw s).toSystem = some i := he
      have hservice := (takeMove_service he').trans (exec_of_eligible he')
      exact .inl ⟨_, _, rfl, hservice, (waitStep_of_eligible he').trans hservice⟩

/-- Settles O32: whatever is chosen, the step takes a possible move or waits. -/
theorem freeChoiceNeverStops : Obligations.FreeChoiceNeverStops := by
  intro s hw ha
  obtain ⟨m, t, -, hmove, hstep⟩ | ⟨-, he, hstep⟩ := freeStep_cases hw ha
  · exact ⟨t, hstep, .inl ⟨m, hmove⟩⟩
  · exact ⟨_, hstep, .inr ⟨he, rfl⟩⟩

/-- Settles O55: the agenda's first move is recorded and taken; with an empty agenda, by the cases of the free choice. -/
theorem recordedMoveIsTaken : Obligations.RecordedMoveIsTaken := by
  intro s t h
  obtain ⟨hw, -⟩ := step_cases h
  rcases ha : s.agenda with _ | ⟨m, rest⟩
  · obtain ⟨m, u, hrecorded, hmove, hstep⟩ | ⟨hrecorded, he, hstep⟩ := freeStep_cases hw ha
    · obtain rfl : t = u := Host.Outcome.next.inj (h.symm.trans hstep)
      rw [hrecorded]
      exact ⟨countDraw s, rfl, hmove⟩
    · obtain rfl : t = countDraw s := Host.Outcome.next.inj (h.symm.trans hstep)
      rw [hrecorded]
      exact ⟨rfl, he⟩
  · rw [step_of_agenda hw ha] at h
    simp only [stepMove, ha]
    exact ⟨{ s with agenda := rest }, rfl, h⟩

end Sys2Proof.Machine

end

/-! ### Proofs of the reset family: the reset service (R230) -/

section

namespace Sys2Proof.Machine

variable {n : Nat}

/-- R230: reset is accepted in every state. -/
theorem exec_reset (s : State) : exec .reset s = .next { s with toSystem := resetEffect s.toSystem } := rfl

/-! ### A master's transaction that is not addressed to the core (R173-R176) -/

theorem not_writeEnabled_of_not_addressed {s : System n} (h : s.addressed = false) : ¬writeEnabled s = true := by
  intro he
  obtain ⟨-, ha, -⟩ := writeEnabled_iff.mp he
  exact Bool.false_ne_true (h.symm.trans ha)

theorem not_readEnabled_of_not_addressed {s : System n} (h : s.addressed = false) : ¬readEnabled s = true := by
  intro he
  obtain ⟨-, ha, -⟩ := readEnabled_iff.mp he
  exact Bool.false_ne_true (h.symm.trans ha)

theorem takeMove_stop_of_not_addressed {s : State} (hp : s.pend = 0) (ha : s.addressed = false) :
    takeMove .stop s = .next s := by
  rw [takeMove_stop hp, mStopEffect_of_not_addressed ha]

/-- Settles O20: reset leaves PEND = NONE and ADDRESSED = 0, so no byte step is enabled and a stop reaches no register. -/
theorem resetService : Obligations.ResetService := by
  refine ⟨by decide, exec_reset, fun s t h => ?_⟩
  obtain ⟨-, ht⟩ := exec_next_iff.mp h
  have hpend : t.pend = 0 := by rw [ht]; rfl
  have haddressed : t.addressed = false := by rw [ht]; rfl
  have hwrite := not_writeEnabled_of_not_addressed haddressed
  exact ⟨fun b => ⟨onSystem_act_stuck _ _ hwrite, onSystem_act_stuck _ _ hwrite⟩,
    fun a => takeMove_rd_stuck a (not_readEnabled_of_not_addressed haddressed),
    takeMove_stop_of_not_addressed hpend haddressed⟩

end Sys2Proof.Machine

end

/-! ### Proofs of the reset family: the hazards of the other parameter values (R240, R241) -/

section

namespace Sys2Proof.Machine

/-- R102 without REWIND_ON_READ: the cursor stays where the last read left it. -/
theorem amREffect_cur_of_no_rewind {c : Config} (h : c.rewindOnRead = false) (s : System c.n) :
    (amREffect c s).cur = s.cur := by
  simp [addressMatchReadEffect c s, h]

theorem amREffect_stg_full (c : Config) (s : System c.n) : (amREffect c s).stg.full = false := by
  rw [addressMatchReadEffect]

theorem amREffect_res (c : Config) (s : System c.n) : (amREffect c s).res = s.res := by
  rw [addressMatchReadEffect]

/-- Settles O57: the open capture gate (R144), and the cursor that `am.r` leaves to `txr` (R102, R104). -/
theorem hazardsOfOtherParameters : Obligations.HazardsOfOtherParameters := by
  refine ⟨fun c s hcapture _ => ?_, fun c s hrewind hone => ?_, fun c s hrewind hdone => ?_⟩
  · obtain ⟨hopen, -⟩ := captureGate c s
    obtain ⟨hdone, -⟩ := hopen (.inr hcapture)
    simp [hdone]
  · have hcur := (amREffect_cur_of_no_rewind hrewind s).trans hone
    simp [txrEffect_one hcur, amREffect_stg_full, amREffect_res]
  · have hcur := (amREffect_cur_of_no_rewind hrewind s).trans hdone
    simp [txrEffect_done hcur, amREffect_stg_full]

end Sys2Proof.Machine

end
